-- ==== Sys2Proof/Word.lean ====
section
/-! DEFINITION. The word types of the Display Encoder: glyph rows, row masks, the frame, command words. -/

namespace Sys2Proof

/-- A glyph row: `GW = 3` bits, bit 2 the left glyph column, bit 0 the right one (R30, R35). -/
abbrev GlyphRow := BitVec 3

/-- A row mask: one frame row of `COLS = 8` bits, column `c` on bit `c`, bit 7 leftmost, 1 = lit (R8, R36). -/
abbrev RowMask := BitVec 8

/-- A DisplayFrame: `ROWS = 8` row masks, frame row `r` at index `r` (R7, R10, R11). -/
abbrev Frame := Vector RowMask 8

/-- The command word `CW = {rst, enc, value}` of an edge, `W + 2` bits at `VALUE_WIDTH = W` (R51). -/
abbrev CommandWord (W : Nat) := BitVec (W + 2)

/-- A byte of the container in which a test harness hands over a command word (log 7). -/
abbrev Byte := BitVec 8

end Sys2Proof
end

