-- ==== Sys2Proof/Config.lean ====
section
/-! DEFINITION. What is fixed for one block: the two parameters of the spec (`VALUE_WIDTH`, `GLYPH_ROM`), the
constants of R7, the free values, and the reference glyph table that the spec supplies for tests only. -/

namespace Sys2Proof.Config

/-- The default of `VALUE_WIDTH` (R5), at which the host's fixed names stand (log 6). Everything else takes the
width as an argument. -/
abbrev valueWidth : Nat := 16

/-- `SH_SIGN`, the shift of the minus glyph (R7). -/
abbrev shSign : Nat := 5

/-- `SH_NTENS`, the shift of the tens glyph of a negative value (R7). -/
abbrev shNegTens : Nat := 1

/-- `SH_PTENS`, the shift of the tens glyph of a non-negative value (R7). -/
abbrev shPosTens : Nat := 4

/-- `SH_UNITS`, the shift of the units glyph (R7). -/
abbrev shUnits : Nat := 0

/-- `MAXMAG`, the largest magnitude with a defined rendering (R7). -/
abbrev maxMag : Nat := 99

end Sys2Proof.Config

namespace Sys2Proof

/-- The shape of `GLYPH_ROM`: glyph index 0..10, glyph row 0..4, a 3-bit cell (R6, R30, R31). The index types
leave no reserved index to read (R32, U4). -/
abbrev GlyphRom := Fin 11 → Fin 5 → GlyphRow

/-- `GLYPH_ROM` of the block: a constant of which nothing is known but its shape (R6, U2; log 5). -/
opaque Config.glyphRom : GlyphRom

/-- `UNSPEC_8`: the `n`-th 8-bit value about which the spec promises nothing (R9, R88, U1; log 4). -/
opaque Config.unspecRow : Nat → RowMask

/-- The two parameters that the model takes as arguments (R5, R6). -/
structure Params where
  /-- `VALUE_WIDTH`, the width of the `value` input (R5). -/
  width : Nat
  /-- 8 bits is the least width that holds -99 to 99 (R5). -/
  width_ge : 8 ≤ width
  /-- `GLYPH_ROM` (R6). -/
  glyphRom : GlyphRom

/-- The block that the host's fixed names describe: the default width, and its unknown glyph table (log 5, log 6). -/
def Config.params : Params := ⟨Config.valueWidth, Nat.le_add_left 8 8, Config.glyphRom⟩

/-- The command word that the environment presents to a block of width `W` at the `n`-th edge for which
`State.inputs` gives none (00_scope.md section 6: the environment's choices are the inputs of each step; log 1). -/
opaque Config.envCommand (W : Nat) : Nat → CommandWord W

/-- `FRAME` at power-up, before the first RESET (R132, U5; log 9). -/
opaque Config.powerUpFrame : Frame

/-- `FRAME_VALID` at power-up (R132, U5; log 9). -/
opaque Config.powerUpValid : Bool

/-- `RANGE_ERR` at power-up (R132, U5; log 9). -/
opaque Config.powerUpErr : Bool

/-- One glyph of a table, from its five glyph rows written as numbers, glyph row 0 first. -/
def glyphOf (a b c d e : GlyphRow) : Fin 5 → GlyphRow := fun r =>
  match r with
  | 0 => a
  | 1 => b
  | 2 => c
  | 3 => d
  | 4 => e

/-- `GLYPH_REF` (R34, K1): the spec's own table FOR TESTS ONLY, not the repository's (log 15). No definition of
the machine uses it. -/
def Config.glyphRef : GlyphRom := fun g =>
  match g with
  | 0 => glyphOf 7 5 5 5 7
  | 1 => glyphOf 2 6 2 2 7
  | 2 => glyphOf 7 1 7 4 7
  | 3 => glyphOf 7 1 7 1 7
  | 4 => glyphOf 5 5 7 1 1
  | 5 => glyphOf 7 4 7 1 7
  | 6 => glyphOf 7 4 7 5 7
  | 7 => glyphOf 7 1 1 1 1
  | 8 => glyphOf 7 5 7 5 7
  | 9 => glyphOf 7 5 7 1 7
  | 10 => glyphOf 0 0 7 0 0

end Sys2Proof
end

