-- ==== Sys2Proof/Syntax.lean ====
section
/-! DEFINITION. The operations of the command port, one constructor per row of spec/opcode_table.json. -/

namespace Sys2Proof

/-- An operation of the command port (R51). The operand of ENCODE is the integer `v = sint(value)` that the block
uses as it stands (R52); which integers a width admits is `Instr.wf` (R60; log 8). -/
inductive Instr where
  /-- RESET (R101): no operand, `enc` and `value` are ignored. -/
  | reset
  /-- ENCODE v (R70): the operand, a two's-complement integer of the `value` input. -/
  | encode (v : Int)
  /-- HOLD (R100): no operand, `value` is ignored. -/
  | hold
  deriving DecidableEq, Repr

/-- The row of spec/opcode_table.json an operation belongs to. -/
def Instr.mnemonic : Instr → String
  | .reset => "RESET"
  | .encode _ => "ENCODE"
  | .hold => "HOLD"

end Sys2Proof
end

