-- ==== Sys2Proof/WellFormed.lean ====
section
/-! DEFINITION. Which operations a block of `VALUE_WIDTH = W` can be given. -/

namespace Sys2Proof

/-- The operands of a `W`-bit `value` input: `-2^(W-1) <= v <= 2^(W-1) - 1` (R52). -/
def fitsWidth (W : Nat) (v : Int) : Bool :=
  decide (-(2 : Int) ^ (W - 1) ≤ v) && decide (v ≤ (2 : Int) ^ (W - 1) - 1)

/-- An operation can be spelled as a command of a block of width `W`: R60 calls a line `ENCODE n` with `n`
outside the representable range a syntax error, not a command. -/
def Instr.wf (W : Nat) : Instr → Bool
  | .reset => true
  | .encode v => fitsWidth W v
  | .hold => true

/-- Well-formed at the machine's own width. -/
def Instr.wellFormed (i : Instr) : Bool := i.wf Config.valueWidth

end Sys2Proof
end

