-- ==== Sys2Proof/Decode.lean ====
section
/-! DEFINITION. From command inputs to operations and back: the command word (R51), its byte container, the rows
of spec/opcode_table.json, and the textual command line (R60). The decoder first, then the encoder, of each. -/

namespace Sys2Proof

/-- `sint(v)`: the integer that a `W`-bit pattern denotes in two's complement, by the formula of R9. -/
def sint {W : Nat} (v : BitVec W) : Int :=
  (v.toNat % 2 ^ (W - 1) : Nat) - (if v.msb then (2 : Int) ^ (W - 1) else 0)

/-! ## The command word -/

/-- Bit `W+1` of the command word: the `rst` input (R51). -/
def cwRst {W : Nat} (cw : CommandWord W) : Bool := cw.getLsbD (W + 1)

/-- Bit `W` of the command word: the `enc` input (R51). -/
def cwEnc {W : Nat} (cw : CommandWord W) : Bool := cw.getLsbD W

/-- Bits `W-1:0` of the command word: the `value` input (R51). -/
def cwValue {W : Nat} (cw : CommandWord W) : BitVec W := cw.extractLsb' 0 W

/-- The operation of an edge, selected by the two top bits of its command word. Total: every command word selects
exactly one operation, and `rst` has priority over `enc` (R51, R58, R114). -/
def decodeCommand {W : Nat} (cw : CommandWord W) : Instr :=
  match cwRst cw, cwEnc cw with
  | true, _ => .reset
  | false, true => .encode (sint (cwValue cw))
  | false, false => .hold

/-- The command word `{rst, enc, value}` of three command inputs (R51). -/
def commandWord {W : Nat} (rst enc : Bool) (value : BitVec W) : CommandWord W :=
  (BitVec.ofBool rst ++ BitVec.ofBool enc ++ value).cast (by omega)

/-- The canonical command word of an operation: ignored bits 0, and the `W`-bit two's-complement pattern of an
operand (R51, R60). -/
def encodeCommand (W : Nat) : Instr → CommandWord W
  | .reset => commandWord true false 0#W
  | .encode v => commandWord false true (BitVec.ofInt W v)
  | .hold => commandWord false false 0#W

/-! ## The byte container (log 7)

The block stores no command word and the spec gives no bytes; this container only hands a command word over as
bytes, least significant byte first, in as few bytes as hold it, the bits above bit `W+1` zero. -/

/-- Why bytes are no command word of the container. -/
inductive DecodeError where
  /-- Fewer bytes than a command word takes. -/
  | truncated
  /-- A bit above bit `W+1` is 1: the block has no such input (R50). -/
  | noSuchInput
  deriving DecidableEq, Repr

/-- How many bytes hold the `W + 2` bits of a command word. -/
def containerBytes (W : Nat) : Nat := (W + 9) / 8

/-- The number that some bytes spell, the first one least significant. -/
def littleEndian : List Byte → Nat
  | [] => 0
  | b :: bs => b.toNat + 256 * littleEndian bs

/-- The `k` lowest bytes of a number, the least significant first. -/
def lowBytes : Nat → Nat → List Byte
  | 0, _ => []
  | k + 1, n => BitVec.ofNat 8 n :: lowBytes k (n / 256)

/-- Reads one command word of a block of width `W` from the front of some bytes and gives the rest back. -/
def decodeBytes (W : Nat) (bytes : List Byte) : Except DecodeError (Instr × List Byte) :=
  if bytes.length < containerBytes W then .error .truncated
  else if littleEndian (bytes.take (containerBytes W)) < 2 ^ (W + 2) then
    .ok (decodeCommand (W := W) (BitVec.ofNat (W + 2) (littleEndian (bytes.take (containerBytes W)))),
      bytes.drop (containerBytes W))
  else .error .noSuchInput

/-- The bytes of a command word in the container. -/
def commandBytes {W : Nat} (cw : CommandWord W) : List Byte := lowBytes (containerBytes W) cw.toNat

/-- The bytes of an operation's canonical command word. -/
def encodeBytes (W : Nat) (i : Instr) : List Byte := commandBytes (encodeCommand W i)

/-- The operation the decoder of a block of width `W` reads from the table word `w` of `nbits` bits, numbered as
spec/opcode_table.json numbers them (bit `W+1` is `rst`); the bits above `nbits` are 0, and a word that the
container does not hold is none. -/
def decodeTableWordAt (W nbits w : Nat) : Option Instr :=
  if w % 2 ^ nbits < 2 ^ (8 * containerBytes W) then
    match decodeBytes W (lowBytes (containerBytes W) (w % 2 ^ nbits)) with
    | .ok (i, _) => some i
    | .error _ => none
  else none

/-- `decodeTableWordAt` at the default width, the one spec/opcode_table.json is written for. -/
def decodeTableWord (nbits w : Nat) : Option Instr := decodeTableWordAt Config.valueWidth nbits w

/-! ## The opcode table -/

/-- A row of the opcode table of a block of width `W`: a word `w` belongs to it when `w AND mask = pattern`. -/
structure OpcodeRow (W : Nat) where
  mnemonic : String
  pattern : CommandWord W
  mask : CommandWord W
  deriving DecidableEq, Repr

/-- The three rows of spec/opcode_table.json, in its order, at width `W`: RESET has `rst` fixed, ENCODE and HOLD
have `rst` and `enc` fixed (R51). -/
def opcodeTable (W : Nat) : List (OpcodeRow W) :=
  [ ⟨"RESET", commandWord true false 0, commandWord true false 0⟩,
    ⟨"ENCODE", commandWord false true 0, commandWord true true 0⟩,
    ⟨"HOLD", commandWord false false 0, commandWord true true 0⟩ ]

/-- A command word belongs to a row. -/
def OpcodeRow.covers {W : Nat} (row : OpcodeRow W) (cw : CommandWord W) : Bool :=
  (cw &&& row.mask) == row.pattern

/-! ## The command line (R60)

A line holds one command: a word, for ENCODE followed by a decimal integer; a semicolon starts a comment. The
spec does not say how the two words of a line are set apart: any number of blanks, DESIGN CHOICE, log 16. -/

/-- Why a line is no command. -/
inductive LineError where
  /-- Nothing but blanks and a comment. -/
  | empty
  /-- Not one of the three commands with its operands. -/
  | unknown
  /-- The operand of ENCODE is no decimal integer. -/
  | notAnInteger
  /-- The operand of ENCODE does not fit the width (R60: a syntax error of the test program). -/
  | outOfWidth
  deriving DecidableEq, Repr

/-- The word RESET of a line. -/
def textReset : List Char := ['R', 'E', 'S', 'E', 'T']

/-- The word ENCODE of a line. -/
def textEncode : List Char := ['E', 'N', 'C', 'O', 'D', 'E']

/-- The word HOLD of a line. -/
def textHold : List Char := ['H', 'O', 'L', 'D']

/-- The words of a line, in order; `word` holds what has been read of the present one. -/
def lineWords (word : List Char) : List Char → List (List Char)
  | [] => if word = [] then [] else [word]
  | c :: cs =>
    if c = ' ' ∨ c = '\t' then
      if word = [] then lineWords [] cs else word :: lineWords [] cs
    else lineWords (word ++ [c]) cs

/-- The value of a decimal digit. -/
def digitValue (c : Char) : Option Nat :=
  if '0'.toNat ≤ c.toNat ∧ c.toNat ≤ '9'.toNat then some (c.toNat - '0'.toNat) else none

/-- Reads decimal digits onto the value `acc` of the digits before them. -/
def readDigits (acc : Nat) : List Char → Option Nat
  | [] => some acc
  | c :: cs =>
    match digitValue c with
    | some d => readDigits (10 * acc + d) cs
    | none => none

/-- A decimal natural number: at least one digit. -/
def readNat : List Char → Option Nat
  | [] => none
  | c :: cs => readDigits 0 (c :: cs)

/-- A decimal integer, which "may carry a leading `-`" (R60). -/
def readInt : List Char → Option Int
  | [] => none
  | c :: cs =>
    if c = '-' then
      match readNat cs with
      | some n => some (-(n : Int))
      | none => none
    else
      match readNat (c :: cs) with
      | some n => some (n : Int)
      | none => none

/-- The command of one line for a block of width `W` (R60). -/
def readLine (W : Nat) (line : List Char) : Except LineError Instr :=
  match lineWords [] (line.takeWhile fun c => c ≠ ';') with
  | [] => .error .empty
  | [w] => if w = textReset then .ok .reset else if w = textHold then .ok .hold else .error .unknown
  | [w, n] =>
    if w = textEncode then
      match readInt n with
      | none => .error .notAnInteger
      | some v => if fitsWidth W v then .ok (.encode v) else .error .outOfWidth
    else .error .unknown
  | _ => .error .unknown

/-- The decimal spelling of an integer, with a leading `-` when it is negative. -/
def writeInt (v : Int) : List Char :=
  if v < 0 then '-' :: Nat.toDigits 10 v.natAbs else Nat.toDigits 10 v.natAbs

/-- The line of an operation (R60). -/
def writeLine : Instr → List Char
  | .reset => textReset
  | .encode v => textEncode ++ ' ' :: writeInt v
  | .hold => textHold

/-- A program: the command words of its lines, one line per edge, or the first line's error (R16, R60). -/
def readProgram (W : Nat) : List (List Char) → Except LineError (List (CommandWord W))
  | [] => .ok []
  | line :: lines =>
    match readLine W line with
    | .error e => .error e
    | .ok i =>
      match readProgram W lines with
      | .error e => .error e
      | .ok ws => .ok (encodeCommand W i :: ws)

end Sys2Proof
end

