-- ==== Sys2Proof/Machine/State.lean ====
section
/-! DEFINITION. The state of the Display Encoder, its one fault, and the state after reset. -/

namespace Sys2Proof.Machine

/-- The faults of the block (R110 to R112: exactly one). No step ENDS in a fault: the block never stops (R110,
R117), so taking RANGE is a next state (`State.takeRange`, R115), and this type names the fault in the record
that Safety.lean keeps (R117). Safe (log 3). -/
inductive Fault where
  /-- RANGE, code 1: raised by ENCODE, and by nothing else, when `abs(v) >= 100` (R110, R111). Safe: the rows the
  spec leaves open are free values (log 3, log 4). -/
  | range
  deriving DecidableEq, Repr

/-- The refusals of the model. -/
inductive Refusal where
  /-- Raised by `exec` for an operation that has no meaning yet; no operation is in that case. Safe. -/
  | notModelled (mnemonic : String)
  deriving DecidableEq, Repr

/-- The state: the 66 bits of R10, and three fields of the model's own (the inputs of the coming edges and two
counters of free values), which are no state of the block (log 1, log 2). `VALUE_WIDTH` is an argument (R5), by
default 16; it gives the command words their width. -/
structure State (W : Nat := Config.valueWidth) where
  /-- `FRAME[0..7]` (R11). -/
  frame : Frame
  /-- `FRAME_VALID` (R14). -/
  frameValid : Bool
  /-- `RANGE_ERR` (R15). -/
  rangeErr : Bool
  /-- The model's own: the command words of the coming edges, first edge first (log 1). -/
  inputs : List (CommandWord W)
  /-- The model's own: how many edges took a free command of the environment (log 1). -/
  inputDraws : Nat
  /-- The model's own: the index of the next `UNSPEC_8` (log 4). -/
  draws : Nat
  deriving DecidableEq, Repr

/-- The blank frame: all LEDs dark (R23). -/
def Frame.blank : Frame := #v[0, 0, 0, 0, 0, 0, 0, 0]

/-- The state of a block of width `W` after a RESET step (R23); the model's own fields at values of its choosing
(log 2). -/
def State.resetAt (W : Nat) : State W :=
  { frame := Frame.blank, frameValid := false, rangeErr := false, inputs := [], inputDraws := 0, draws := 0 }

/-- The state after a RESET step at the default width (R23). -/
def State.reset : State := State.resetAt Config.valueWidth

/-- The state at power-up, before the first RESET: every one of the 66 bits is unspecified (R132; log 9). -/
def State.powerUp {W : Nat} (inputs : List (CommandWord W)) : State W :=
  { frame := Config.powerUpFrame, frameValid := Config.powerUpValid, rangeErr := Config.powerUpErr,
    inputs := inputs, inputDraws := 0, draws := 0 }

end Sys2Proof.Machine
end

