-- ==== Sys2Proof/Machine/Operands.lean ====
section
/-! DEFINITION. What ENCODE reads off its operand: sign, magnitude, digits, range, layout (R53 to R55, R71 to R73). -/

namespace Sys2Proof.Machine

/-- `negative = (v < 0)` (R53, R71): zero is not negative. -/
def negative (v : Int) : Bool := decide (v < 0)

/-- `magnitude = abs(v)`, exact for every operand (R53, R71, R89). -/
def magnitude (v : Int) : Nat := v.natAbs

/-- `tens = magnitude / 10` (R54, R72). -/
def tens (v : Int) : Nat := magnitude v / 10

/-- `units = magnitude % 10` (R54, R72). -/
def units (v : Int) : Nat := magnitude v % 10

/-- `oor = (magnitude >= 100)` (R73). -/
def oor (v : Int) : Bool := decide (100 ≤ magnitude v)

/-- In range: `magnitude <= 99` (R54, R73). -/
abbrev InRange (v : Int) : Prop := magnitude v ≤ Config.maxMag

/-- The sign as a bit of the operand's pattern: bit `W-1` of `value` (R53). -/
def negativeBit {W : Nat} (value : BitVec W) : Bool := value.msb

/-- The magnitude as bits: `value`, or `~value + 1` modulo `2^W` read as unsigned (R53, K5). -/
def magnitudeBits {W : Nat} (value : BitVec W) : BitVec W :=
  if negativeBit value then ~~~value + 1 else value

/-- The sign and the two decimal digits of an in-range operand. -/
structure Digits where
  negative : Bool
  tens : Fin 10
  units : Fin 10
  deriving DecidableEq, Repr

/-- The digits of an operand; none when it is out of range, where `tens` is not a digit and selects no glyph (R54). -/
def digits? (v : Int) : Option Digits :=
  if h : InRange v then
    some
      { negative := negative v
        tens := ⟨tens v, by simp only [InRange, tens, Config.maxMag] at *; omega⟩
        units := ⟨units v, by simp only [units]; omega⟩ }
  else none

/-- The four layouts (R55). -/
inductive Layout where
  | pos1
  | pos2
  | neg1
  | neg2
  deriving DecidableEq, Repr

/-- The layout of an in-range operand: the pair `(negative, tens > 0)` (R55). -/
def Digits.layout (d : Digits) : Layout :=
  match d.negative, decide (d.tens.val > 0) with
  | false, false => .pos1
  | false, true => .pos2
  | true, false => .neg1
  | true, true => .neg2

/-- The 2-bit layout code `{negative, tens > 0}` (R55). -/
def Layout.code : Layout → BitVec 2
  | .pos1 => 0b00
  | .pos2 => 0b01
  | .neg1 => 0b10
  | .neg2 => 0b11

end Sys2Proof.Machine
end

