-- ==== Sys2Proof/Machine/Flags.lean ====
section
/-! DEFINITION. What each operation writes to the two flags (R14, R15), and the cause code (R111). -/

namespace Sys2Proof.Machine

/-- ENCODE sets `FRAME_VALID`, in range or not (R14, R70). -/
def frameValidAfterEncode : Bool := true

/-- ENCODE writes `RANGE_ERR` with the `oor` of its operand (R15, R70). -/
def rangeErrAfterEncode (v : Int) : Bool := oor v

/-- RESET clears `FRAME_VALID` (R14, R101). -/
def frameValidAfterReset : Bool := false

/-- RESET clears `RANGE_ERR` (R15, R101). -/
def rangeErrAfterReset : Bool := false

/-- The cause code of a fault; 0 means no fault, which is what `range_err = 0` reports (R111). -/
def causeCode : Option Fault → Nat
  | none => 0
  | some .range => 1

end Sys2Proof.Machine
end

