-- ==== Sys2Proof/Machine/Ops.lean ====
section
/-! DEFINITION. The shared operations: reading the glyph table, building row masks and frames (ENC), writing the
state, taking the RANGE fault, sampling the command inputs of an edge. -/

namespace Sys2Proof.Machine

/-! ## Reading the glyph table -/

/-- `GlyphRead(g, r)`: the 3-bit glyph row `r` of glyph `g` (R32, R94). No side effect. -/
def glyphRead (rom : GlyphRom) (g : Fin 11) (r : Fin 5) : GlyphRow := rom g r

/-- `G_MINUS`, the index of the minus glyph (R31). -/
def minusIndex : Fin 11 := 10

/-- The index of the glyph of a digit is its value (R31). -/
def digitIndex (d : Fin 10) : Fin 11 := d.castSucc

/-- One glyph as a 15-bit word `{row4, row3, row2, row1, row0}`, the packing of R57 for writing tables. -/
def glyphWord (rom : GlyphRom) (g : Fin 11) : BitVec 15 :=
  rom g 4 ++ rom g 3 ++ rom g 2 ++ rom g 1 ++ rom g 0

/-- A glyph row placed in a frame row: `zext_8(row) << shift` (R74 to R76, R94). -/
def place (row : GlyphRow) (shift : Nat) : RowMask := row.setWidth 8 <<< shift

/-! ## The core function ENC -/

/-- Slot S, the sign (R74). -/
def slotS (rom : GlyphRom) (d : Digits) (r : Fin 5) : RowMask :=
  if d.negative then place (glyphRead rom minusIndex r) Config.shSign else 0x00

/-- Slot T, the tens digit: a tens digit of zero is not drawn (R75). -/
def slotT (rom : GlyphRom) (d : Digits) (r : Fin 5) : RowMask :=
  if d.tens = 0 then 0x00
  else if d.negative then place (glyphRead rom (digitIndex d.tens) r) Config.shNegTens
  else place (glyphRead rom (digitIndex d.tens) r) Config.shPosTens

/-- Slot U, the units digit: not drawn in layout NEG2 (R76, R85). -/
def slotU (rom : GlyphRom) (d : Digits) (r : Fin 5) : RowMask :=
  if d.negative then
    if d.tens = 0 then place (glyphRead rom (digitIndex d.units) r) Config.shUnits else 0x00
  else place (glyphRead rom (digitIndex d.units) r) Config.shUnits

/-- The row mask of glyph row `r`: the OR of the three contributions (R77). -/
def rowMask (rom : GlyphRom) (d : Digits) (r : Fin 5) : RowMask :=
  slotS rom d r ||| slotT rom d r ||| slotU rom d r

/-- Frame assembly: glyph row `r` on frame row `r + 1`, rows 0, 6 and 7 blank (R38, R78). -/
def assemble (m : Fin 5 → RowMask) : Frame := #v[0x00, m 0, m 1, m 2, m 3, m 4, 0x00, 0x00]

/-- The frame of an in-range operand's sign and digits (R74 to R78). -/
def renderedFrame (rom : GlyphRom) (d : Digits) : Frame := assemble (rowMask rom d)

/-- `ENC(v) = (rows, oor)` (R78, R88): the core function, of the glyph table, of the five values that stand for the
rows the spec leaves open out of range, and of the operand. In range the five values are not used. -/
def enc (rom : GlyphRom) (unspec : Fin 5 → RowMask) (v : Int) : Frame × Bool :=
  match digits? v with
  | some d => (renderedFrame rom d, false)
  | none => (assemble unspec, true)

/-! ## Writing the state -/

/-- The one write of the block: all eight row registers and both flags at one edge (R13, R41). -/
def State.writeAll {W : Nat} (s : State W) (frame : Frame) (valid err : Bool) : State W :=
  { s with frame := frame, frameValid := valid, rangeErr := err }

/-- The five `UNSPEC_8` values that an out-of-range ENCODE draws in this state (R88; log 4). -/
def State.unspecRows {W : Nat} (s : State W) (r : Fin 5) : RowMask := Config.unspecRow (s.draws + r.val)

/-- Five free values have been drawn: later draws are other ones (R9, R118; log 4). -/
def State.advanceDraws {W : Nat} (s : State W) : State W := { s with draws := s.draws + 5 }

/-- Taking the RANGE fault (R115, R88): rows 0, 6, 7 `<- 0x00`, rows 1..5 `<- UNSPEC_8` each, `FRAME_VALID <- 1`,
`RANGE_ERR <- 1`, and nothing more: no state is saved, no control is transferred, and there is no return (R117). -/
def State.takeRange {W : Nat} (s : State W) : State W :=
  (s.writeAll (assemble s.unspecRows) true true).advanceDraws

/-- ENCODE of an in-range operand: the whole frame and both flags, from the operand and the glyph table alone
(R70, R86, R87). -/
def State.loadFrame {W : Nat} (s : State W) (rom : GlyphRom) (v : Int) (d : Digits) : State W :=
  s.writeAll (renderedFrame rom d) frameValidAfterEncode (rangeErrAfterEncode v)

/-! ## Sampling the command inputs -/

/-- The command word sampled at this edge: the next one of `inputs`, or a free one (R50, R51, R135; log 1). -/
def State.sampledCommand {W : Nat} (s : State W) : CommandWord W :=
  match s.inputs with
  | cw :: _ => cw
  | [] => Config.envCommand W s.inputDraws

/-- The edge has passed: its command inputs are gone (R24; log 1). The 66 bits are as before. -/
def State.passEdge {W : Nat} (s : State W) : State W :=
  match s.inputs with
  | _ :: rest => { s with inputs := rest }
  | [] => { s with inputDraws := s.inputDraws + 1 }

/-- The operation of this edge, selected by the command word sampled at it (R51, R102). -/
def State.operation {W : Nat} (s : State W) : Instr := decodeCommand s.sampledCommand

/-- `s` with the table word `w` of `nbits` bits presented at the next edge, before the commands already waiting
(log 14). -/
def State.presentTableWord {W : Nat} (s : State W) (nbits w : Nat) : State W :=
  { s with inputs := BitVec.ofNat (W + 2) (w % 2 ^ nbits) :: s.inputs }

end Sys2Proof.Machine
end

