-- ==== Sys2Proof/Machine/Control.lean ====
section
/-! DEFINITION. The meanings of RESET (R101) and HOLD (R100). -/

namespace Sys2Proof.Machine

/-- Clearing all 66 bits, in a block of any width (R101, R23). -/
def clearAll {W : Nat} (s : State W) : Host.Outcome (State W) Fault Refusal :=
  .next (s.writeAll Frame.blank frameValidAfterReset rangeErrAfterReset)

/-- Keeping the state, in a block of any width (R100). -/
def keepAll {W : Nat} (s : State W) : Host.Outcome (State W) Fault Refusal := .next s

/-- RESET: all 66 bits to zero; no fault whatever the ignored inputs are (R101, R23). -/
def execReset (s : State) : Host.Outcome State Fault Refusal := clearAll s

/-- HOLD: no state change (R100). -/
def execHold (s : State) : Host.Outcome State Fault Refusal := keepAll s

end Sys2Proof.Machine
end

