-- ==== Sys2Proof/Machine/Encode.lean ====
section
/-! DEFINITION. The meaning of ENCODE (R70). -/

namespace Sys2Proof.Machine

/-- ENCODE with the glyph table `rom`: an in-range operand loads its frame, any other takes the RANGE fault, which
is a next state (R70, R88, R110, R115; log 3). For a block of any width. -/
def encodeWith {W : Nat} (rom : GlyphRom) (v : Int) (s : State W) : Host.Outcome (State W) Fault Refusal :=
  match digits? v with
  | some d => .next (s.loadFrame rom v d)
  | none => .next s.takeRange

/-- ENCODE v, with the block's glyph table (R70; log 5). -/
def execEncode (v : Int) (s : State) : Host.Outcome State Fault Refusal := encodeWith Config.glyphRom v s

end Sys2Proof.Machine
end

