-- ==== Sys2Proof/Machine/Dispatch.lean ====
section
/-! DEFINITION. Which meaning each operation has. -/

namespace Sys2Proof.Machine

def exec (i : Instr) (s : State) : Host.Outcome State Fault Refusal :=
  match i with
  | .reset => Sys2Proof.Machine.execReset s
  | .encode v => Sys2Proof.Machine.execEncode v s
  | .hold => Sys2Proof.Machine.execHold s

end Sys2Proof.Machine
end

