-- ==== Sys2Proof/Machine/Step.lean ====
section
/-! DEFINITION. One step: one rising edge of `clk` (00_scope.md section 6, R50, R138). -/

namespace Sys2Proof.Machine

/-- One edge: the sampled command inputs select the operation, which acts on the 66 bits (R44, R51). -/
def step (s : State) : Host.Outcome State Fault Refusal := exec s.operation s.passEdge

/-- `s` with the table word `w` presented at the next edge, before the commands already waiting (log 14). -/
def State.withFetchWord (s : State) (nbits w : Nat) : State :=
  s.presentTableWord nbits w

end Sys2Proof.Machine
end

