-- ==== Sys2Proof/Machine/Block.lean ====
section
/-! DEFINITION. The block with its two parameters as arguments (R5, R6): one operation, one step, the machine.
The host's fixed names are this block at `Config.params`. -/

namespace Sys2Proof.Machine

/-- One operation of a block of width `W` whose glyph table is `rom` (R70, R100, R101). -/
def blockExec {W : Nat} (rom : GlyphRom) (i : Instr) (s : State W) : Host.Outcome (State W) Fault Refusal :=
  match i with
  | .reset => clearAll s
  | .encode v => encodeWith rom v s
  | .hold => keepAll s

/-- One edge of a block of width `W` whose glyph table is `rom`: the command inputs sampled on the ports select the
operation, which acts on the 66 bits (R44, R50, R51). -/
def blockStep {W : Nat} (rom : GlyphRom) (s : State W) : Host.Outcome (State W) Fault Refusal :=
  blockExec rom s.operation s.passEdge

/-- The block of the given parameters, as a machine. -/
def blockCore (p : Params) : Host.Core :=
  { State := State p.width, Fault := Fault, Refusal := Refusal, step := blockStep p.glyphRom,
    reset := State.resetAt p.width }

end Sys2Proof.Machine
end

