-- ==== Sys2Proof/Machine/Ports.lean ====
section
/-! DEFINITION. The output ports: functions of the state alone (R22, R37, R50, R56). -/

namespace Sys2Proof.Machine

/-- Frame row `r`, `r` in 0..7 (R11). -/
def frameRow (f : Frame) (r : Fin 8) : RowMask := f.get r

/-- The frame row that carries glyph row `r`: frame row `r + 1` (R38). -/
def bodyRow (f : Frame) (r : Fin 5) : RowMask := f.get ⟨r.val + 1, by omega⟩

/-- The frame bus of a frame: row `r` on bits `8r+7:8r`, row 0 in the lowest byte (R37). -/
def frameBus (f : Frame) : BitVec 64 :=
  f[7] ++ f[6] ++ f[5] ++ f[4] ++ f[3] ++ f[2] ++ f[1] ++ f[0]

/-- The output `frame[63:0]` (R22, R50). -/
def State.frameOut {W : Nat} (s : State W) : BitVec 64 := frameBus s.frame

/-- The output `frame_valid` (R14, R22). -/
def State.frameValidOut {W : Nat} (s : State W) : Bool := s.frameValid

/-- The output `range_err` (R15, R22). -/
def State.rangeErrOut {W : Nat} (s : State W) : Bool := s.rangeErr

/-- The 66 bits of R10, apart from the model's own fields. -/
def State.regs {W : Nat} (s : State W) : Frame × Bool × Bool := (s.frame, s.frameValid, s.rangeErr)

end Sys2Proof.Machine
end

