-- ==== Sys2Proof/Machine/Readback.lean ====
section
/-! DEFINITION. What a frame shows of a value, the decoder of R90 that reads it back off a frame, and the
well-formedness `GLYPH_WF` of a glyph table (R33). The block itself reads no frame (R13). -/

namespace Sys2Proof.Machine

/-- The rendered information of a value: its sign, its tens digit, and its units digit where it is drawn (R90). -/
structure Info where
  negative : Bool
  tens : Nat
  units : Option Nat
  deriving DecidableEq, Repr

/-- `info(v)`: the units digit is not rendered in layout NEG2 (R82, R90). -/
def info (v : Int) : Info :=
  { negative := negative v
    tens := tens v
    units := if negative v ∧ tens v > 0 then none else some (units v) }

/-- Row mask `m` has glyph row `g` on the three columns from `shift` up. -/
def showsAt (m : RowMask) (shift : Nat) (g : GlyphRow) : Bool := m.extractLsb' shift 3 == g

/-- Rows 1..5 of a frame all pass a check that is given the glyph row they carry (R38). -/
def allRows (f : Frame) (check : RowMask → Fin 5 → Bool) : Bool :=
  check f[1] 0 && check f[2] 1 && check f[3] 2 && check f[4] 3 && check f[5] 4

/-- Shape POS1: bits 7:3 zero, bits 2:0 the glyph of the digit `u` (R56, R90). -/
def fitsPos1 (rom : GlyphRom) (f : Frame) (u : Fin 10) : Bool :=
  allRows f fun m r => (m.extractLsb' 3 5 == 0) && showsAt m 0 (rom (digitIndex u) r)

/-- Shape POS2: bits 7 and 3 zero, bits 6:4 the glyph of `t`, bits 2:0 the glyph of `u` (R56, R90). -/
def fitsPos2 (rom : GlyphRom) (f : Frame) (t u : Fin 10) : Bool :=
  allRows f fun m r =>
    !m.getLsbD 7 && !m.getLsbD 3 && showsAt m 4 (rom (digitIndex t) r) && showsAt m 0 (rom (digitIndex u) r)

/-- Shape NEG1: bits 7:5 the minus glyph, bits 4:3 zero, bits 2:0 the glyph of `u` (R56, R90). -/
def fitsNeg1 (rom : GlyphRom) (f : Frame) (u : Fin 10) : Bool :=
  allRows f fun m r =>
    showsAt m 5 (rom minusIndex r) && (m.extractLsb' 3 2 == 0) && showsAt m 0 (rom (digitIndex u) r)

/-- Shape NEG2: bits 7:5 the minus glyph, bits 4 and 0 zero, bits 3:1 the glyph of `t` (R56, R90). -/
def fitsNeg2 (rom : GlyphRom) (f : Frame) (t : Fin 10) : Bool :=
  allRows f fun m r =>
    showsAt m 5 (rom minusIndex r) && !m.getLsbD 4 && !m.getLsbD 0 && showsAt m 1 (rom (digitIndex t) r)

/-- The ten digits. -/
def allDigits : List (Fin 10) := [0, 1, 2, 3, 4, 5, 6, 7, 8, 9]

/-- The nine digits that a tens digit, or the single digit of a negative value, can be (R75, R90). -/
def nonzeroDigits : List (Fin 10) := [1, 2, 3, 4, 5, 6, 7, 8, 9]

/-- The decoder of R90: the sign and digits of every one of the four shapes that fits rows 1..5 of a frame. -/
def readBack (rom : GlyphRom) (f : Frame) : List Info :=
  ((allDigits.filter fun u => fitsPos1 rom f u).map fun u => ⟨false, 0, some u.val⟩) ++
  (nonzeroDigits.flatMap fun t => (allDigits.filter fun u => fitsPos2 rom f t u).map fun u => ⟨false, t.val, some u.val⟩) ++
  ((nonzeroDigits.filter fun u => fitsNeg1 rom f u).map fun u => ⟨true, 0, some u.val⟩) ++
  ((nonzeroDigits.filter fun t => fitsNeg2 rom f t).map fun t => ⟨true, t.val, none⟩)

/-- WF2: no glyph is blank (R33). -/
def GlyphNonBlank (rom : GlyphRom) : Prop := ∀ g : Fin 11, ∃ r : Fin 5, rom g r ≠ 0

/-- WF3: the ten digit glyphs are pairwise distinct (R33). -/
def GlyphDigitsDistinct (rom : GlyphRom) : Prop :=
  ∀ a b : Fin 10, a ≠ b → ∃ r : Fin 5, rom (digitIndex a) r ≠ rom (digitIndex b) r

/-- WF4: two in-range values with the same frame have the same rendered information (R33). -/
def LayoutsDistinguishable (rom : GlyphRom) : Prop :=
  ∀ (unspec : Fin 5 → RowMask) (v w : Int), InRange v → InRange w →
    (enc rom unspec v).1 = (enc rom unspec w).1 → info v = info w

/-- `GLYPH_WF(GLYPH_ROM)` (R33); WF1, the shape, is the type `GlyphRom`. -/
structure GlyphWf (rom : GlyphRom) : Prop where
  nonBlank : GlyphNonBlank rom
  digitsDistinct : GlyphDigitsDistinct rom
  distinguishable : LayoutsDistinguishable rom

end Sys2Proof.Machine
end

