-- ==== Sys2Proof/Safety.lean ====
section
/-! DEFINITION. What a safe run is: one that raises no RANGE fault; and the record of the faults of a run, which
the block itself does not keep (R117, D16). -/

namespace Sys2Proof.Safety

open Sys2Proof.Machine

/-- The fault an operation raises: RANGE, by an ENCODE whose operand is out of range, and nothing else (R110 to
R112). -/
def faultOf : Instr → Option Fault
  | .reset => none
  | .encode v => if oor v then some .range else none
  | .hold => none

/-- The fault raised by the next step of a state. -/
def stepFault {W : Nat} (s : State W) : Option Fault := faultOf s.operation

/-- The record of the faults that the next `k` steps raise, first one first (R117: "a sticky record"). -/
def faultRecord {W : Nat} (rom : GlyphRom) : Nat → State W → List Fault
  | 0, _ => []
  | k + 1, s =>
    (stepFault s).toList ++
      (match blockStep rom s with
       | .next t => faultRecord rom k t
       | .fault _ => []
       | .refused _ => [])

/-- A run of `k` steps is safe when no ENCODE of it is out of range (R110). -/
abbrev SafeRun {W : Nat} (k : Nat) (s : State W) : Prop := faultRecord Config.glyphRom k s = []

/-- Rows 0, 6 and 7 are blank (R12). -/
def BlankRows {W : Nat} (s : State W) : Prop := s.frame[0] = 0 ∧ s.frame[6] = 0 ∧ s.frame[7] = 0

/-- The 66 bits as every reachable state after a reset has them: rows 0, 6, 7 blank (R12); `RANGE_ERR` only with
`FRAME_VALID` (R116); the reset frame while nothing has been encoded (R14, R23); and a frame that is marked valid
without `RANGE_ERR` is the defined rendering of some in-range value (R15, R70). -/
structure FrameMeaningOf {W : Nat} (rom : GlyphRom) (s : State W) : Prop where
  blankRows : BlankRows s
  errIsValid : s.rangeErr = true → s.frameValid = true
  blankBeforeEncode : s.frameValid = false → s.frame = Frame.blank
  validIsRendering : s.frameValid = true → s.rangeErr = false →
    ∃ v : Int, InRange v ∧ ∀ unspec, s.frame = (enc rom unspec v).1

/-- `FrameMeaningOf` at the block's own glyph table. -/
abbrev FrameMeaning {W : Nat} (s : State W) : Prop := FrameMeaningOf Config.glyphRom s

end Sys2Proof.Safety
end

