-- ==== Sys2Proof/Certificates/Slice0/Obligations.lean ====
section
/-! DEFINITION. The statements about the Display Encoder that the provers are asked to prove. -/

/-! ## Words of the spec that the statements use -/

namespace Sys2Proof.Spec

open Sys2Proof.Machine

/-- `zext_8(GlyphRead(g, r))`, the `G[g][r]` of R79 to R82, for `g` in 0..10. -/
def glyph (rom : GlyphRom) (g : Nat) (r : Fin 5) : RowMask := (rom (Fin.ofNat 11 g) r).setWidth 8

/-- The mask `m` that the pseudocode block of R78 builds for glyph row `r`, line by line. -/
def algorithmRow (rom : GlyphRom) (v : Int) (r : Fin 5) : RowMask :=
  let negative := v < 0
  let magnitude := if negative then (-v).toNat else v.toNat
  let tens := magnitude / 10
  let units := magnitude % 10
  let m : RowMask := 0x00
  if negative then
    let m := m ||| (glyph rom 10 r <<< 5)
    if tens > 0 then m ||| (glyph rom tens r <<< 1) else m ||| glyph rom units r
  else
    let m := if tens > 0 then m ||| (glyph rom tens r <<< 4) else m
    m ||| glyph rom units r

/-- The 66 bits of `t` are a defined rendering: rows 0, 6, 7 blank, rows 1..5 as given, valid, no error. -/
def Shows (t : State) (rows : Fin 5 → RowMask) : Prop :=
  frameRow t.frame 0 = 0 ∧ frameRow t.frame 6 = 0 ∧ frameRow t.frame 7 = 0 ∧
  (∀ r, bodyRow t.frame r = rows r) ∧ t.frameValid = true ∧ t.rangeErr = false

/-- A command word of a block of another width, with the same `rst`, `enc` and operand: its value sign-extended. -/
def widenWord {W : Nat} (W' : Nat) (cw : CommandWord W) : CommandWord W' :=
  commandWord (cwRst cw) (cwEnc cw) ((cwValue cw).signExtend W')

/-- The state of a block of another width that shows the same and is given the same operands. -/
def widenState {W : Nat} (W' : Nat) (s : State W) : State W' :=
  { frame := s.frame, frameValid := s.frameValid, rangeErr := s.rangeErr, inputs := s.inputs.map (widenWord W'),
    inputDraws := s.inputDraws, draws := s.draws }

/-- The model's own fields are the same in two states (they are no state of the block, log 2). -/
def SameModelFields (s t : State) : Prop :=
  t.inputs = s.inputs ∧ t.inputDraws = s.inputDraws ∧ t.draws = s.draws

end Sys2Proof.Spec

open Sys2Proof Sys2Proof.Machine Sys2Proof.Safety Sys2Proof.Spec

/-! ## Command words, operands, lines -/

/-- Words of 95_test_vectors.md section 4, read by the decoder (R51); tier 1. -/
def Obligations.ListedWordsDecode : Prop :=
  decodeTableWord 24 0x00000 = some .hold ∧
  decodeTableWord 24 0x0ABCD = some .hold ∧
  decodeTableWord 24 0x10019 = some (.encode 25) ∧
  decodeTableWord 24 0x1FFE9 = some (.encode (-23)) ∧
  decodeTableWord 24 0x18000 = some (.encode (-32768)) ∧
  decodeTableWord 24 0x17FFF = some (.encode 32767) ∧
  decodeTableWord 24 0x20000 = some .reset ∧
  decodeTableWord 24 0x3FFFF = some .reset

/-- R51: `CW = {rst, enc, value}`, and the two top bits select the operation, for every width; every command word
is such a concatenation; and the canonical spellings at the default width. -/
def Obligations.TopBitsSelectOperation : Prop :=
  (∀ (W : Nat) (rst enc : Bool) (value : BitVec W),
    (commandWord rst enc value).getLsbD (W + 1) = rst ∧
    (commandWord rst enc value).getLsbD W = enc ∧
    (∀ i, i < W → (commandWord rst enc value).getLsbD i = value.getLsbD i) ∧
    decodeCommand (commandWord rst enc value) =
      if rst then .reset else if enc then .encode (sint value) else .hold) ∧
  (∀ (W : Nat) (cw : CommandWord W), ∃ rst enc value, cw = commandWord rst enc value) ∧
  encodeCommand 16 .reset = 0x20000 ∧ encodeCommand 16 .hold = 0x00000 ∧
  (∀ n : Int, fitsWidth 16 n = true → ((encodeCommand 16 (.encode n)).toNat : Int) = 0x10000 + n % 65536)

/-- At every width every command word belongs to exactly one row of the opcode table, the row of the operation the
decoder reads (R51, R58); at the default width the table's numbers are those of spec/opcode_table.json. -/
def Obligations.OpcodeTableCoversEveryWord : Prop :=
  (∀ (W : Nat) (cw : CommandWord W), ∃ row ∈ opcodeTable W,
    row.covers cw = true ∧ row.mnemonic = (decodeCommand cw).mnemonic ∧
    ∀ other ∈ opcodeTable W, other.covers cw = true → other = row) ∧
  opcodeTable 16 =
    [⟨"RESET", 0x20000, 0x20000⟩, ⟨"ENCODE", 0x10000, 0x30000⟩, ⟨"HOLD", 0x00000, 0x30000⟩]

/-- Decode and encode agree, for every width R5 admits and every operand it can spell. -/
def Obligations.DecodeOfEncodeEveryWidth : Prop :=
  ∀ (W : Nat) (i : Instr), 8 ≤ W → i.wf W = true → decodeCommand (encodeCommand W i) = i

/-- Encoding what was decoded gives the command word back with its ignored bits 0 (R51), and what is decoded is
well-formed. -/
def Obligations.EncodeOfDecodeClearsIgnoredBits : Prop :=
  ∀ (W : Nat) (rst enc : Bool) (value : BitVec W), 8 ≤ W →
    (decodeCommand (commandWord rst enc value)).wf W = true ∧
    encodeCommand W (decodeCommand (commandWord rst enc value)) =
      if rst then commandWord true false 0 else if enc then commandWord false true value else commandWord false false 0

/-- The byte container of log 7 (the model's choice), at every width: it loses nothing, refuses what is no command
word, and reads every command word as the decoder does; at the default width it is three bytes, with six bits to
spare. -/
def Obligations.ByteContainerRoundTrip : Prop :=
  (∀ (W : Nat) (i : Instr) (rest : List Byte), 8 ≤ W → i.wf W = true →
    decodeBytes W (encodeBytes W i ++ rest) = .ok (i, rest)) ∧
  (∀ (W : Nat) (cw : CommandWord W) (rest : List Byte),
    decodeBytes W (commandBytes cw ++ rest) = .ok (decodeCommand cw, rest)) ∧
  (∀ (W : Nat) (bytes : List Byte), bytes.length < containerBytes W → decodeBytes W bytes = .error .truncated) ∧
  (∀ (b0 b1 b2 : Byte) (rest : List Byte), 4 ≤ b2.toNat →
    decodeBytes 16 (b0 :: b1 :: b2 :: rest) = .error .noSuchInput) ∧
  containerBytes 16 = 3

/-- R60: the line of every well-formed operation reads as that operation, with or without a comment, and a line
`ENCODE n` with `n` outside the width is an error. How the words of a line are set apart is the model's choice
(log 16). -/
def Obligations.CommandLineRoundTrip : Prop :=
  (∀ (W : Nat) (i : Instr) (comment : List Char), i.wf W = true →
    readLine W (writeLine i) = .ok i ∧ readLine W (writeLine i ++ ';' :: comment) = .ok i) ∧
  (∀ (W : Nat) (n : Int), fitsWidth W n = false → readLine W (writeLine (.encode n)) = .error .outOfWidth)

/-- R52: the operand is the two's-complement integer of the pattern, within its bounds, each integer of the range
denoted by exactly one pattern, and ENCODE uses it as it stands. -/
def Obligations.OperandIsTwosComplement : Prop :=
  (∀ (W : Nat) (value : BitVec W), 8 ≤ W →
    -(2 : Int) ^ (W - 1) ≤ sint value ∧ sint value ≤ 2 ^ (W - 1) - 1 ∧
    sint value = ((value.extractLsb' 0 (W - 1)).toNat : Int) - 2 ^ (W - 1) * (if value.getLsbD (W - 1) then 1 else 0) ∧
    decodeCommand (commandWord false true value) = .encode (sint value)) ∧
  (∀ (W : Nat) (v : Int), 8 ≤ W → -(2 : Int) ^ (W - 1) ≤ v → v ≤ 2 ^ (W - 1) - 1 →
    ∃! value : BitVec W, sint value = v)

/-- R53: sign and magnitude, as integers and as bits, exact for every operand of every width, the most negative
one included; zero is not negative. -/
def Obligations.MagnitudeIsExact : Prop :=
  (∀ (W : Nat) (value : BitVec W), 8 ≤ W →
    negativeBit value = negative (sint value) ∧ negativeBit value = value.getLsbD (W - 1) ∧
    (magnitudeBits value).toNat = magnitude (sint value)) ∧
  (∀ v : Int, (negative v = true ↔ v < 0) ∧ (0 ≤ v → (magnitude v : Int) = v) ∧ (v < 0 → (magnitude v : Int) = -v)) ∧
  (∀ W : Nat, 8 ≤ W → magnitude (sint (BitVec.intMin W)) = 2 ^ (W - 1)) ∧
  negative 0 = false ∧ magnitude 0 = 0

/-- R54, R73: the digits, and the range predicate in its equivalent forms; out of range, steps 3 and 4 of ENC are
replaced: rows 0, 6, 7 are zero and rows 1..5 are the five open values, whichever they are. -/
def Obligations.DigitsAndRange : Prop :=
  ∀ v : Int,
    tens v = magnitude v / 10 ∧ units v = magnitude v % 10 ∧
    magnitude v = 10 * tens v + units v ∧ units v ≤ 9 ∧
    (InRange v ↔ magnitude v ≤ 99) ∧ (InRange v ↔ tens v ≤ 9) ∧ (InRange v ↔ -99 ≤ v ∧ v ≤ 99) ∧
    (oor v = true ↔ 100 ≤ magnitude v) ∧ (oor v = true ↔ 10 ≤ tens v) ∧ (oor v = true ↔ ¬ InRange v) ∧
    (digits? v = none ↔ oor v = true) ∧
    (∀ d, digits? v = some d → d.negative = negative v ∧ d.tens.val = tens v ∧ d.units.val = units v) ∧
    (∀ rom unspec, (enc rom unspec v).2 = oor v) ∧
    (∀ rom unspec, oor v = true →
      (enc rom unspec v).1 = #v[0x00, unspec 0, unspec 1, unspec 2, unspec 3, unspec 4, 0x00, 0x00])

/-- R55: the layout is the pair `(negative, tens > 0)`, with its code, for the operand values of the table. -/
def Obligations.LayoutOfOperand : Prop :=
  ∀ (v : Int) (d : Digits), digits? v = some d →
    (d.layout = .pos1 ↔ 0 ≤ v ∧ v ≤ 9) ∧ (d.layout = .pos2 ↔ 10 ≤ v ∧ v ≤ 99) ∧
    (d.layout = .neg1 ↔ -9 ≤ v ∧ v ≤ -1) ∧ (d.layout = .neg2 ↔ -99 ≤ v ∧ v ≤ -10) ∧
    d.layout.code = BitVec.ofBool (negative v) ++ BitVec.ofBool (decide (tens v > 0))

/-- R5: an operand that fits two widths is decoded alike at both (its pattern at the wider one is the sign
extension of its pattern at the narrower one). -/
def Obligations.WidthDoesNotChangeOperand : Prop :=
  ∀ (W W' : Nat) (value : BitVec W), 8 ≤ W → W ≤ W' →
    decodeCommand (commandWord false true (value.signExtend W')) = decodeCommand (commandWord false true value)

/-- R57: in the 15-bit word of a glyph, glyph row `r` is bits `3r+2:3r`. -/
def Obligations.GlyphWordPacking : Prop :=
  ∀ (rom : GlyphRom) (g : Fin 11) (r : Fin 5), (glyphWord rom g).extractLsb' (3 * r.val) 3 = glyphRead rom g r

/-! ## ENC and ENCODE -/

/-- R78: for every in-range operand and every glyph table, ENC is the pseudocode block of R78. -/
def Obligations.EncMatchesAlgorithmBlock : Prop :=
  ∀ (rom : GlyphRom) (unspec : Fin 5 → RowMask) (v : Int), -99 ≤ v → v ≤ 99 →
    enc rom unspec v =
      (#v[0x00, algorithmRow rom v 0, algorithmRow rom v 1, algorithmRow rom v 2, algorithmRow rom v 3,
        algorithmRow rom v 4, 0x00, 0x00], false)

/-- R79, layout POS1: only the units glyph; bits 7:3 of every row are 0. -/
def Obligations.EncodePos1ShowsUnits : Prop :=
  ∀ (rom : GlyphRom) (v : Int) (s : State), 0 ≤ v → v ≤ 9 →
    ∃ t, encodeWith rom v s = .next t ∧ SameModelFields s t ∧ Shows t (fun r => glyph rom v.toNat r) ∧
      ∀ r, (bodyRow t.frame r).extractLsb' 3 5 = 0

/-- R80, layout POS2: tens glyph on columns 6..4, units glyph on columns 2..0; columns 7 and 3 always 0. -/
def Obligations.EncodePos2ShowsTensAndUnits : Prop :=
  ∀ (rom : GlyphRom) (v : Int) (s : State), 10 ≤ v → v ≤ 99 →
    ∃ t, encodeWith rom v s = .next t ∧ SameModelFields s t ∧
      Shows t (fun r => (glyph rom (v.toNat / 10) r <<< 4) ||| glyph rom (v.toNat % 10) r) ∧
      ∀ r, (bodyRow t.frame r).toNat = 16 * (glyph rom (v.toNat / 10) r).toNat + (glyph rom (v.toNat % 10) r).toNat ∧
        (bodyRow t.frame r).getLsbD 7 = false ∧ (bodyRow t.frame r).getLsbD 3 = false

/-- R81, layout NEG1: minus glyph on columns 7..5, units glyph on columns 2..0; columns 4 and 3 always 0. -/
def Obligations.EncodeNeg1ShowsMinusAndUnits : Prop :=
  ∀ (rom : GlyphRom) (v : Int) (s : State), -9 ≤ v → v ≤ -1 →
    ∃ t, encodeWith rom v s = .next t ∧ SameModelFields s t ∧
      Shows t (fun r => (glyph rom 10 r <<< 5) ||| glyph rom (-v).toNat r) ∧
      ∀ r, (bodyRow t.frame r).toNat = 32 * (glyph rom 10 r).toNat + (glyph rom (-v).toNat r).toNat ∧
        (bodyRow t.frame r).getLsbD 4 = false ∧ (bodyRow t.frame r).getLsbD 3 = false

/-- R82, layout NEG2: minus glyph on columns 7..5, tens glyph on columns 3..1, columns 4 and 0 always 0; the units
digit does not appear: every operand of the layout with the same tens digit gives the same state. -/
def Obligations.EncodeNeg2ShowsMinusAndTens : Prop :=
  ∀ (rom : GlyphRom) (v : Int) (s : State), -99 ≤ v → v ≤ -10 →
    (∃ t, encodeWith rom v s = .next t ∧ SameModelFields s t ∧
      Shows t (fun r => (glyph rom 10 r <<< 5) ||| (glyph rom ((-v).toNat / 10) r <<< 1)) ∧
      ∀ r, (bodyRow t.frame r).toNat = 32 * (glyph rom 10 r).toNat + 2 * (glyph rom ((-v).toNat / 10) r).toNat ∧
        (bodyRow t.frame r).getLsbD 4 = false ∧ (bodyRow t.frame r).getLsbD 0 = false) ∧
    (∀ w : Int, -99 ≤ w → w ≤ -10 → (-w).toNat / 10 = (-v).toNat / 10 → encodeWith rom w s = encodeWith rom v s)

/-- R56: the row mask of each layout is the concatenation of glyph rows and zero bits that the table shows, rows 0,
6, 7 are zero, and column `c` of row `r` is bit `8r+c` of the 64-bit frame. -/
def Obligations.RowShapesOfLayouts : Prop :=
  (∀ (rom : GlyphRom) (unspec : Fin 5 → RowMask) (v : Int) (d : Digits) (r : Fin 5), digits? v = some d →
    frameRow (enc rom unspec v).1 0 = 0 ∧ frameRow (enc rom unspec v).1 6 = 0 ∧ frameRow (enc rom unspec v).1 7 = 0 ∧
    bodyRow (enc rom unspec v).1 r =
      (match d.layout with
       | .pos1 => (0#5 ++ rom (Fin.ofNat 11 (units v)) r : BitVec 8)
       | .pos2 => (0#1 ++ rom (Fin.ofNat 11 (tens v)) r ++ 0#1 ++ rom (Fin.ofNat 11 (units v)) r : BitVec 8)
       | .neg1 => (rom 10 r ++ 0#2 ++ rom (Fin.ofNat 11 (units v)) r : BitVec 8)
       | .neg2 => (rom 10 r ++ 0#1 ++ rom (Fin.ofNat 11 (tens v)) r ++ 0#1 : BitVec 8))) ∧
  (∀ (f : Frame) (r c : Fin 8), (frameBus f).getLsbD (8 * r.val + c.val) = (frameRow f r).getLsbD c.val)

/-- R84: the glyphs placed together never share a column, no shift loses a bit, the OR is the sum, and each placed
glyph row can be read back by slicing. -/
def Obligations.PlacedGlyphsNeverOverlap : Prop :=
  ∀ (rom : GlyphRom) (d : Digits) (r : Fin 5),
    slotS rom d r &&& slotT rom d r = 0 ∧ slotS rom d r &&& slotU rom d r = 0 ∧ slotT rom d r &&& slotU rom d r = 0 ∧
    (rowMask rom d r).toNat = (slotS rom d r).toNat + (slotT rom d r).toNat + (slotU rom d r).toNat ∧
    (∀ c, d.layout = .pos1 → 3 ≤ c → (rowMask rom d r).getLsbD c = false) ∧
    (∀ c, d.layout = .pos2 → c = 7 ∨ c = 3 → (rowMask rom d r).getLsbD c = false) ∧
    (∀ c, d.layout = .neg1 → c = 4 ∨ c = 3 → (rowMask rom d r).getLsbD c = false) ∧
    (∀ c, d.layout = .neg2 → c = 4 ∨ c = 0 → (rowMask rom d r).getLsbD c = false) ∧
    (d.layout = .neg1 ∨ d.layout = .neg2 → (rowMask rom d r).extractLsb' 5 3 = rom minusIndex r) ∧
    (d.layout = .pos2 → (rowMask rom d r).extractLsb' 4 3 = rom (digitIndex d.tens) r) ∧
    (d.layout = .neg2 → (rowMask rom d r).extractLsb' 1 3 = rom (digitIndex d.tens) r) ∧
    (d.layout ≠ .neg2 → (rowMask rom d r).extractLsb' 0 3 = rom (digitIndex d.units) r)

/-- R91: the frames of `d` and `-d`, `1 <= d <= 9`, agree on columns 4..0 and differ exactly by the minus glyph on
columns 7..5, so they differ when the minus glyph is not blank. -/
def Obligations.SignSymmetryOfSingleDigits : Prop :=
  ∀ (rom : GlyphRom) (unspec : Fin 5 → RowMask) (d : Int), 1 ≤ d → d ≤ 9 →
    (∀ r, bodyRow (enc rom unspec (-d)).1 r = bodyRow (enc rom unspec d).1 r ||| (glyph rom 10 r <<< 5) ∧
      (bodyRow (enc rom unspec d).1 r).extractLsb' 5 3 = 0 ∧
      (bodyRow (enc rom unspec (-d)).1 r).extractLsb' 0 5 = (bodyRow (enc rom unspec d).1 r).extractLsb' 0 5) ∧
    ((∃ r, rom 10 r ≠ 0) → (enc rom unspec (-d)).1 ≠ (enc rom unspec d).1)

/-- R70: ENCODE of every operand, in range or not, in every state: ENC's rows to the whole frame, `FRAME_VALID` to
1, `RANGE_ERR` to `oor`, the RANGE fault exactly when `oor`. The open rows of R88 are this state's free values, and
drawing them advances the model's counter (log 4). -/
def Obligations.EncodeWritesEncOfOperand : Prop :=
  ∀ (v : Int) (s : State),
    exec (.encode v) s =
      .next { s with
        frame := (enc Config.glyphRom s.unspecRows v).1
        frameValid := true
        rangeErr := decide (100 ≤ v.natAbs)
        draws := if 100 ≤ v.natAbs then s.draws + 5 else s.draws } ∧
    (faultOf (.encode v) = some .range ↔ 100 ≤ v.natAbs)

/-- R92: every operand in -99..99 gives a well-formed frame and no fault: ENCODE completes, with ENC's frame, and
with nothing else changed. -/
def Obligations.InRangeEncodeCompletes : Prop :=
  ∀ (v : Int) (s : State) (unspec : Fin 5 → RowMask), -99 ≤ v → v ≤ 99 →
    exec (.encode v) s =
      .next { s with frame := (enc Config.glyphRom unspec v).1, frameValid := true, rangeErr := false } ∧
    faultOf (.encode v) = none ∧
    frameRow (enc Config.glyphRom unspec v).1 0 = 0 ∧ frameRow (enc Config.glyphRom unspec v).1 6 = 0 ∧
    frameRow (enc Config.glyphRom unspec v).1 7 = 0

/-- R115: the entry of the RANGE fault, in every state: rows 0, 6, 7 zero, `FRAME_VALID` 1, `RANGE_ERR` 1, rows 1..5
some five values of which the rule promises nothing, and nothing more: the commands waiting are untouched (of the
state beside the 66 bits only the model's counter of free values moves, log 4). -/
def Obligations.RangeFaultEntry : Prop :=
  ∀ (v : Int) (s : State), v ≤ -100 ∨ 100 ≤ v →
    faultOf (.encode v) = some .range ∧
    ∃ (a b c d e : RowMask) (n : Nat),
      exec (.encode v) s =
        .next { s with frame := #v[0x00, a, b, c, d, e, 0x00, 0x00], frameValid := true, rangeErr := true, draws := n }

/-- R88, R118: rows 1..5 of an out-of-range ENCODE are five free values, and a second one draws five other ones.
That they are `Config.unspecRow` at the counter `draws` is the model's form of `UNSPEC_8` (log 4). -/
def Obligations.OutOfRangeRowsAreDrawnAfresh : Prop :=
  ∀ (v w : Int) (s : State), 100 ≤ v.natAbs → 100 ≤ w.natAbs →
    ∃ t t', exec (.encode v) s = .next t ∧ exec (.encode w) t = .next t' ∧
      (∀ r : Fin 5, bodyRow t.frame r = Config.unspecRow (s.draws + r.val)) ∧
      (∀ r : Fin 5, bodyRow t'.frame r = Config.unspecRow (s.draws + 5 + r.val)) ∧
      t'.frameValid = true ∧ t'.rangeErr = true

/-- R85: the dropped units digit is no fault: every operand of layout NEG2 leaves `RANGE_ERR` 0 and a defined
frame, which is the same for every units digit. -/
def Obligations.DroppedUnitsDigitIsNoFault : Prop :=
  ∀ (t u u' : Nat) (s : State), 1 ≤ t → t ≤ 9 → u ≤ 9 → u' ≤ 9 →
    ∃ s', exec (.encode (-((10 * t + u : Nat) : Int))) s = .next s' ∧
      exec (.encode (-((10 * t + u' : Nat) : Int))) s = .next s' ∧
      s'.frameValid = true ∧ s'.rangeErr = false ∧ faultOf (.encode (-((10 * t + u : Nat) : Int))) = none ∧
      ∀ r, bodyRow s'.frame r = (glyph Config.glyphRom 10 r <<< 5) ||| (glyph Config.glyphRom t r <<< 1)

/-- R86, R13: two ENCODE steps with the same in-range operand produce the same frame and flags, whatever the two
states held before; and so do two RESET steps. -/
def Obligations.EncodeReadsNoState : Prop :=
  ∀ (v : Int) (s s' : State), InRange v →
    ∃ t t', exec (.encode v) s = .next t ∧ exec (.encode v) s' = .next t' ∧ t.regs = t'.regs ∧
      ∃ u u', exec .reset s = .next u ∧ exec .reset s' = .next u' ∧ u.regs = u'.regs

/-- R42: ENCODE of an in-range operand and RESET are idempotent, HOLD is the identity, and ENCODE of an
out-of-range operand is idempotent on rows 0, 6, 7 and on the flags. -/
def Obligations.OperationsAreIdempotent : Prop :=
  (∀ (v : Int) (s t : State), InRange v → exec (.encode v) s = .next t → exec (.encode v) t = .next t) ∧
  (∀ s t : State, exec .reset s = .next t → exec .reset t = .next t) ∧
  (∀ s : State, exec .hold s = .next s) ∧
  (∀ (v : Int) (s t u : State), ¬ InRange v → exec (.encode v) s = .next t → exec (.encode v) t = .next u →
    frameRow u.frame 0 = frameRow t.frame 0 ∧ frameRow u.frame 6 = frameRow t.frame 6 ∧
    frameRow u.frame 7 = frameRow t.frame 7 ∧ u.frameValid = t.frameValid ∧ u.rangeErr = t.rangeErr)

/-! ## RESET, HOLD, the step -/

/-- R101, R23: RESET clears all 66 bits in every state and never faults, and the outputs are then all zero. -/
def Obligations.ResetClearsEverything : Prop :=
  (∀ s : State,
    exec .reset s =
      .next { s with frame := #v[0x00, 0x00, 0x00, 0x00, 0x00, 0x00, 0x00, 0x00], frameValid := false, rangeErr := false }) ∧
  faultOf .reset = none ∧
  (∀ s t : State, exec .reset s = .next t → t.frameOut = 0 ∧ t.frameValidOut = false ∧ t.rangeErrOut = false) ∧
  (∀ (W : Nat) (enc : Bool) (value : BitVec W), decodeCommand (commandWord true enc value) = .reset)

/-- What reset leaves: the 66 bits of `State.reset` are zero (R23), and they are what a RESET step gives from the
unspecified power-up state (R132). -/
def Obligations.ResetStateIsTheStateAfterReset : Prop :=
  State.reset.regs = (#v[0x00, 0x00, 0x00, 0x00, 0x00, 0x00, 0x00, 0x00], false, false) ∧
  ∀ (enc : Bool) (value : BitVec 16) (rest : List (CommandWord 16)),
    ∃ t, step (State.powerUp (commandWord true enc value :: rest)) = .next t ∧ t.regs = State.reset.regs ∧ t.inputs = rest

/-- R100: HOLD changes nothing and never faults, and any number of consecutive HOLD steps leaves the state as it
was (but for their own command words, which are used up). -/
def Obligations.HoldChangesNothing : Prop :=
  (∀ s : State, exec .hold s = .next s) ∧ faultOf .hold = none ∧
  (∀ (W : Nat) (value : BitVec W), decodeCommand (commandWord false false value) = .hold) ∧
  (∀ (words rest : List (CommandWord Config.valueWidth)) (s : State),
    (∀ cw ∈ words, decodeCommand cw = .hold) → s.inputs = words ++ rest →
    core.run words.length s = .next { s with inputs := rest })

/-- A step runs the operation of the command word sampled at its edge, on the state with that word used up; where
the given words have run out, the word is a free one of the environment (R51; the form of the inputs is log 1). -/
def Obligations.StepRunsSampledOperation : Prop :=
  (∀ (s : State) (cw : CommandWord Config.valueWidth) (rest : List (CommandWord Config.valueWidth)),
    s.inputs = cw :: rest → step s = exec (decodeCommand cw) { s with inputs := rest }) ∧
  (∀ s : State, s.inputs = [] →
    step s = exec (decodeCommand (Config.envCommand 16 s.inputDraws)) { s with inputDraws := s.inputDraws + 1 })

/-- A table word presented at the next edge is the operation the decoder reads from it (log 14). -/
def Obligations.PresentedWordRunsNext : Prop :=
  ∀ (s : State) (nbits w : Nat) (i : Instr), decodeTableWord nbits w = some i → step (s.withFetchWord nbits w) = exec i s

/-- Every operation and every step complete, in every state: no command word is illegal (R58) and the block never
halts (00_scope.md section 6, R110). -/
def Obligations.EveryStepCompletes : Prop :=
  (∀ (i : Instr) (s : State), ∃ t, exec i s = .next t) ∧ (∀ s : State, ∃ t, step s = .next t) ∧
  (∀ (k : Nat) (s : State), ∃ t, core.run k s = .next t)

/-- R114: `rst` over `enc` over hold, and the operand of a RESET step is not examined. -/
def Obligations.PriorityOfCommandInputs : Prop :=
  ∀ (s : State) (enc : Bool) (value : BitVec 16) (rest : List (CommandWord 16)),
    (s.inputs = commandWord true enc value :: rest →
      s.operation = .reset ∧ stepFault s = none ∧ step s = exec .reset { s with inputs := rest }) ∧
    (s.inputs = commandWord false true value :: rest →
      step s = exec (.encode (sint value)) { s with inputs := rest } ∧
      (stepFault s = some .range ↔ 100 ≤ (sint value).natAbs)) ∧
    (s.inputs = commandWord false false value :: rest →
      stepFault s = none ∧ step s = .next { s with inputs := rest })

/-- R58, U6: input bits that an operation ignores have no effect: the step's result does not depend on them. -/
def Obligations.IgnoredInputsHaveNoEffect : Prop :=
  ∀ (s : State) (enc enc' : Bool) (value value' : BitVec 16) (rest : List (CommandWord 16)),
    step { s with inputs := commandWord true enc value :: rest } =
      step { s with inputs := commandWord true enc' value' :: rest } ∧
    step { s with inputs := commandWord false false value :: rest } =
      step { s with inputs := commandWord false false value' :: rest }

/-- The frame of the operations and of the step: the model's own fields change only as log 1 and log 4 say. -/
def Obligations.ModelFieldsFrame : Prop :=
  (∀ (i : Instr) (s t : State), exec i s = .next t →
    t.inputs = s.inputs ∧ t.inputDraws = s.inputDraws ∧ (faultOf i = none → t.draws = s.draws) ∧
    (faultOf i = some .range → t.draws = s.draws + 5)) ∧
  (∀ s t : State, step s = .next t →
    t.inputs = s.inputs.tail ∧ t.inputDraws = (if s.inputs = [] then s.inputDraws + 1 else s.inputDraws))

/-- R14, R15: what each operation writes to the two flags, and that no operation has a flag as an input: with other
flags before it, RESET and ENCODE leave the same state, and HOLD the same frame. -/
def Obligations.FlagsAfterEveryOperation : Prop :=
  (∀ (i : Instr) (s : State) (valid err : Bool),
    (i ≠ .hold → exec i { s with frameValid := valid, rangeErr := err } = exec i s) ∧
    (∀ t u, exec i s = .next t → exec i { s with frameValid := valid, rangeErr := err } = .next u → u.frame = t.frame)) ∧
  ∀ (i : Instr) (s t : State), exec i s = .next t →
    (i = .reset → t.frameValid = false ∧ t.rangeErr = false) ∧
    (∀ v, i = .encode v → t.frameValid = true ∧ (t.rangeErr = true ↔ 100 ≤ v.natAbs)) ∧
    (i = .hold → t.frameValid = s.frameValid ∧ t.rangeErr = s.rangeErr)

/-! ## Faults and their record -/

/-- R111: the one cause, its code, who raises it and when, and what it records. -/
def Obligations.RangeIsTheOnlyFault : Prop :=
  (∀ i : Instr, faultOf i = some .range ↔ ∃ v, i = .encode v ∧ 100 ≤ v.natAbs) ∧
  (∀ f : Fault, f = .range) ∧ causeCode (some .range) = 1 ∧ causeCode none = 0 ∧
  (∀ (i : Instr) (s t : State), exec i s = .next t → faultOf i = some .range → t.rangeErr = true)

/-- R117: after a step `RANGE_ERR` is 1 exactly when the step raised RANGE, or held a `RANGE_ERR` that was 1. -/
def Obligations.RangeErrIsSetAndCleared : Prop :=
  ∀ s t : State, step s = .next t →
    (t.rangeErr = true ↔ stepFault s = some .range ∨ (s.operation = .hold ∧ s.rangeErr = true))

/-- A run that raises no RANGE fault ends without `RANGE_ERR` if it starts without it (R110, R117); the record of
faults is Safety.lean's (log 3). -/
def Obligations.SafeRunKeepsRangeErrClear : Prop :=
  ∀ (k : Nat) (s : State), SafeRun k s → s.rangeErr = false → ∃ t, core.run k s = .next t ∧ t.rangeErr = false

/-! ## Invariants -/

/-- R12: RESET and ENCODE, of every operand, write zero to rows 0, 6 and 7, every step keeps them zero, and so they
are zero in every state reached after a RESET. -/
def Obligations.BlankRowsInvariant : Prop :=
  (∀ (i : Instr) (s t : State), i ≠ .hold → exec i s = .next t → BlankRows t) ∧
  (∀ s t : State, BlankRows s → step s = .next t → BlankRows t) ∧
  (∀ (k : Nat) (s t u : State), exec .reset s = .next t → core.run k t = .next u → BlankRows u)

/-- The state after reset meets the invariants (R12, R23). -/
def Obligations.ResetMeetsInvariants : Prop := BlankRows State.reset ∧ FrameMeaning State.reset

/-- Every step keeps what the 66 bits mean: blank rows, `RANGE_ERR` only with `FRAME_VALID`, the blank frame before
the first ENCODE, and otherwise the rendering of an in-range value (R12, R14, R15, R116); and so does every step of a
block of any width and any glyph table, and its state after reset has that meaning. -/
def Obligations.FrameMeaningInvariant : Prop :=
  (∀ s t : State, FrameMeaning s → step s = .next t → FrameMeaning t) ∧
  (∀ (W : Nat) (rom : GlyphRom) (s t : State W),
    FrameMeaningOf rom s → blockStep rom s = .next t → FrameMeaningOf rom t) ∧
  (∀ (W : Nat) (rom : GlyphRom), FrameMeaningOf rom (State.resetAt W))

/-- From any state, the unspecified power-up state included, one RESET or ENCODE step gives a state that meets the
invariants (R132, R21). -/
def Obligations.AnyCommandButHoldDefinesTheState : Prop :=
  ∀ s t : State, s.operation ≠ .hold → step s = .next t → FrameMeaning t

/-- R44: the frame and the flags are always the result of the most recent ENCODE or RESET, whatever was done before
it and however many HOLD steps follow. -/
def Obligations.LastCommandDeterminesOutputs : Prop :=
  ∀ (before holds rest : List (CommandWord Config.valueWidth)) (cw : CommandWord Config.valueWidth) (s : State),
    s.inputs = before ++ cw :: (holds ++ rest) → (∀ w ∈ holds, decodeCommand w = .hold) →
    ∃ t, core.run (before.length + 1 + holds.length) s = .next t ∧ t.inputs = rest ∧
      (decodeCommand cw = .reset → t.regs = State.reset.regs) ∧
      (∀ v, decodeCommand cw = .encode v → InRange v → ∀ unspec,
        t.regs = ((enc Config.glyphRom unspec v).1, true, false)) ∧
      (∀ v, decodeCommand cw = .encode v → ¬ InRange v → BlankRows t ∧ t.frameValid = true ∧ t.rangeErr = true)

/-! ## Outputs -/

/-- R37: frame row `r` on bits `8r+7:8r` of the bus, column `c` of row `r` on bit `8r+c`. -/
def Obligations.FrameBusLayout : Prop :=
  ∀ (s : State) (r c : Fin 8),
    s.frameOut.extractLsb' (8 * r.val) 8 = frameRow s.frame r ∧
    s.frameOut.getLsbD (8 * r.val + c.val) = (frameRow s.frame r).getLsbD c.val ∧
    s.frameOut.extractLsb' 0 8 = frameRow s.frame 0 ∧ s.frameOut.extractLsb' 56 8 = frameRow s.frame 7

/-- R22: the outputs are functions of the 66 bits alone, and show all of them. -/
def Obligations.OutputsShowExactlyTheRegisters : Prop :=
  ∀ s t : State,
    (s.frameOut = t.frameOut ∧ s.frameValidOut = t.frameValidOut ∧ s.rangeErrOut = t.rangeErrOut) ↔ s.regs = t.regs

/-! ## What a frame shows -/

/-- R90: for a well-formed table the decoder of R90 recovers the rendered information of every in-range value, and
nothing else fits. -/
def Obligations.ReadBackRecoversInfo : Prop :=
  ∀ (rom : GlyphRom) (unspec : Fin 5 → RowMask) (v : Int), GlyphWf rom → InRange v →
    info v ∈ readBack rom (enc rom unspec v).1 ∧ ∀ i ∈ readBack rom (enc rom unspec v).1, i = info v

/-- R90: "WF4 is exactly the statement that all shapes that fit report the same `info`". -/
def Obligations.DistinguishableIffReadBackIsUnique : Prop :=
  ∀ rom : GlyphRom, LayoutsDistinguishable rom ↔
    ∀ (unspec : Fin 5 → RowMask) (v : Int), InRange v → ∀ i ∈ readBack rom (enc rom unspec v).1, i = info v

/-- R90: for a well-formed table the in-range operands give 118 distinct frames. -/
def Obligations.InRangeFramesNumber118 : Prop :=
  ∀ (rom : GlyphRom) (unspec : Fin 5 → RowMask), GlyphWf rom →
    ((Finset.Icc (-99 : Int) 99).image fun v => (enc rom unspec v).1).card = 118

/-- R90: for a well-formed table the full value can be recovered exactly when `v >= -9`. -/
def Obligations.FullValueIsRecoveredFromMinusNine : Prop :=
  ∀ (rom : GlyphRom) (unspec : Fin 5 → RowMask) (v : Int), GlyphWf rom → InRange v →
    ((∀ w, InRange w → (enc rom unspec w).1 = (enc rom unspec v).1 → w = v) ↔ -9 ≤ v)

/-- R33: WF4 implies WF3, and that the glyphs of the digits 1 to 9 are not blank (for the digit 0 see log 13). -/
def Obligations.DistinguishableImpliesDistinctDigits : Prop :=
  ∀ rom : GlyphRom, LayoutsDistinguishable rom →
    GlyphDigitsDistinct rom ∧ ∀ d : Fin 10, d ≠ 0 → ∃ r, rom (digitIndex d) r ≠ 0

/-- Log 13: WF4 does not imply that the glyph of the digit 0 is not blank, so WF2 adds something to it. -/
def Obligations.BlankZeroCanBeDistinguishable : Prop :=
  ∃ rom : GlyphRom, LayoutsDistinguishable rom ∧ ∀ r, rom 0 r = 0

/-- 95_test_vectors.md section 2.5: with no blank glyph no in-range operand gives the all-zero frame, so the reset
frame can be told from every encoded one by its pixels. -/
def Obligations.NoInRangeFrameIsBlank : Prop :=
  ∀ (rom : GlyphRom) (unspec : Fin 5 → RowMask) (v : Int), GlyphNonBlank rom → InRange v →
    (enc rom unspec v).1 ≠ Frame.blank

/-! ## Blocks of every width and every glyph table -/

/-- The machine that the host's names describe is the block with the default width (R5) and its own glyph table. -/
def Obligations.MachineIsTheDefaultBlock : Prop :=
  (∀ (i : Instr) (s : State), exec i s = blockExec Config.glyphRom i s) ∧
  (∀ s : State, step s = blockStep Config.glyphRom s) ∧
  (∀ (s : State) (nbits w : Nat), s.withFetchWord nbits w = s.presentTableWord nbits w) ∧
  (∀ (k : Nat) (s : State), core.run k s = (blockCore Config.params).run k s) ∧
  Config.params.width = 16

/-- R50: the command inputs sampled at an edge of a block of any width, with `value` of that width: what each of the
three operations leaves, for every glyph table, in every state; the outputs are the 66 bits. Where no given command
is left, the inputs are free ones (log 1). -/
def Obligations.PortsOfEveryWidth : Prop :=
  ∀ (W : Nat) (rom : GlyphRom) (s : State W), 8 ≤ W →
    (∀ (enc : Bool) (value : BitVec W) (rest : List (CommandWord W)),
      s.inputs = commandWord true enc value :: rest →
      blockStep rom s = .next { s with
        frame := #v[0x00, 0x00, 0x00, 0x00, 0x00, 0x00, 0x00, 0x00], frameValid := false, rangeErr := false,
        inputs := rest }) ∧
    (∀ (value : BitVec W) (rest : List (CommandWord W)), s.inputs = commandWord false true value :: rest →
      blockStep rom s = .next { s with
        frame := (enc rom s.unspecRows (sint value)).1, frameValid := true,
        rangeErr := decide (100 ≤ (sint value).natAbs), inputs := rest,
        draws := if 100 ≤ (sint value).natAbs then s.draws + 5 else s.draws }) ∧
    (∀ (value : BitVec W) (rest : List (CommandWord W)), s.inputs = commandWord false false value :: rest →
      blockStep rom s = .next { s with inputs := rest }) ∧
    (s.inputs = [] → blockStep rom s =
      blockExec rom (decodeCommand (Config.envCommand W s.inputDraws)) { s with inputDraws := s.inputDraws + 1 }) ∧
    (∀ r : Fin 8, s.frameOut.extractLsb' (8 * r.val) 8 = frameRow s.frame r) ∧
    s.frameValidOut = s.frameValid ∧ s.rangeErrOut = s.rangeErr

/-- R5: no rule gives a different result for different widths on values that fit both: a block of a wider `value`
that is given the same operands does the same at every step and in every run over given commands. -/
def Obligations.WiderBlockDoesTheSame : Prop :=
  (∀ (W W' : Nat) (rom : GlyphRom) (s : State W), 8 ≤ W → W ≤ W' → s.inputs ≠ [] →
    ∃ t, blockStep rom s = .next t ∧ blockStep rom (widenState W' s) = .next (widenState W' t)) ∧
  (∀ (p q : Params) (k : Nat) (s : State p.width), p.width ≤ q.width → p.glyphRom = q.glyphRom →
    k ≤ s.inputs.length →
    ∃ t, (blockCore p).run k s = .next t ∧ (blockCore q).run k (widenState q.width s) = .next (widenState q.width t))

/-- A word of the opcode table at any width, presented at the next edge, is the operation that width's decoder reads
from it (log 7, log 14: the model's forms). -/
def Obligations.PresentedWordRunsNextAtEveryWidth : Prop :=
  ∀ (W : Nat) (rom : GlyphRom) (s : State W) (nbits w : Nat) (i : Instr),
    decodeTableWordAt W nbits w = some i → blockStep rom (s.presentTableWord nbits w) = blockExec rom i s
end

