-- ==== Sys2Proof/Laws/Decode.lean ====
section
/-! SUPPORT. The fields of a command word and the two readings of a pattern. -/

namespace Sys2Proof

theorem cwRst_commandWord {W : Nat} (rst enc : Bool) (value : BitVec W) :
    cwRst (commandWord rst enc value) = rst := by
  have h : ¬ W + 1 < W := by omega
  simp only [cwRst, commandWord, BitVec.getLsbD_cast, BitVec.getLsbD_append, h, if_false, Nat.add_sub_cancel_left]
  simp

theorem cwEnc_commandWord {W : Nat} (rst enc : Bool) (value : BitVec W) :
    cwEnc (commandWord rst enc value) = enc := by
  simp only [cwEnc, commandWord, BitVec.getLsbD_cast, BitVec.getLsbD_append, Nat.lt_irrefl, if_false, Nat.sub_self]
  simp

theorem cwValue_commandWord {W : Nat} (rst enc : Bool) (value : BitVec W) :
    cwValue (commandWord rst enc value) = value := by
  apply BitVec.eq_of_getLsbD_eq
  intro i hi
  simp [cwValue, commandWord, BitVec.getLsbD_append, hi]

/-- A command word is the concatenation of its three inputs (R51). -/
theorem commandWord_of_fields {W : Nat} (cw : CommandWord W) :
    commandWord (cwRst cw) (cwEnc cw) (cwValue cw) = cw := by
  apply BitVec.eq_of_getLsbD_eq
  intro i hi
  simp only [commandWord, cwRst, cwEnc, cwValue, BitVec.getLsbD_cast, BitVec.getLsbD_append,
    BitVec.getLsbD_extractLsb', BitVec.getLsbD_ofBool, Nat.zero_add]
  by_cases h1 : i < W
  · simp [h1]
  · by_cases h2 : i = W
    · subst h2; simp
    · have h3 : i = W + 1 := by omega
      subst h3; simp

/-- The formula of R9 is the two's-complement reading of the library. -/
theorem sint_eq_toInt {W : Nat} (v : BitVec W) : sint v = v.toInt := by
  rcases W with _ | n
  · simp [sint, BitVec.eq_nil v]
  · have hv := v.isLt
    have hpow : 2 ^ (n + 1) = 2 * 2 ^ n := by rw [Nat.pow_succ]; omega
    have hpow' : (2 : Int) ^ (n + 1) = 2 * 2 ^ n := by rw [Int.pow_succ]; omega
    simp only [sint, BitVec.toInt, BitVec.msb_eq_decide, Nat.add_sub_cancel, decide_eq_true_eq]
    have hcast : ((2 ^ n : Nat) : Int) = (2 : Int) ^ n := by push_cast; rfl
    by_cases h : 2 ^ n ≤ v.toNat
    · have hm : v.toNat % 2 ^ n = v.toNat - 2 ^ n := by
        rw [Nat.mod_eq_sub_mod h, Nat.mod_eq_of_lt (by omega)]
      rw [if_pos h, if_neg (by omega), hm]
      push_cast [h]; rw [hpow']; ring
    · rw [if_neg h, if_pos (by omega), Nat.mod_eq_of_lt (by omega)]; ring

theorem decodeCommand_commandWord {W : Nat} (rst enc : Bool) (value : BitVec W) :
    decodeCommand (commandWord rst enc value) =
      match rst, enc with
      | true, _ => .reset
      | false, true => .encode (sint value)
      | false, false => .hold := by
  cases rst <;> cases enc <;>
    simp only [decodeCommand, cwRst_commandWord, cwEnc_commandWord, cwValue_commandWord]

/-- A bitwise AND of command words is the AND of their inputs. -/
theorem commandWord_and {W : Nat} (r r' e e' : Bool) (v v' : BitVec W) :
    commandWord r e v &&& commandWord r' e' v' = commandWord (r && r') (e && e') (v &&& v') := by
  apply BitVec.eq_of_getLsbD_eq
  intro i hi
  simp only [commandWord, BitVec.getLsbD_and, BitVec.getLsbD_cast, BitVec.getLsbD_append]
  by_cases h1 : i < W
  · simp [h1]
  · by_cases h2 : i - W < 1
    · simp [h1, h2]
    · by_cases h3 : i - W - 1 = 0 <;> simp [h1, h2, h3]

/-- Two command words are equal exactly when their three inputs are. -/
theorem commandWord_inj {W : Nat} {r r' e e' : Bool} {v v' : BitVec W} :
    commandWord r e v = commandWord r' e' v' ↔ r = r' ∧ e = e' ∧ v = v' := by
  constructor
  · intro h
    have h1 := congrArg cwRst h
    have h2 := congrArg cwEnc h
    have h3 := congrArg cwValue h
    rw [cwRst_commandWord, cwRst_commandWord] at h1
    rw [cwEnc_commandWord, cwEnc_commandWord] at h2
    rw [cwValue_commandWord, cwValue_commandWord] at h3
    exact ⟨h1, h2, h3⟩
  · rintro ⟨rfl, rfl, rfl⟩; rfl

/-- The RESET row covers exactly the words whose `rst` bit is 1 (R51). -/
theorem covers_resetRow {W : Nat} (rst enc : Bool) (value : BitVec W) :
    OpcodeRow.covers ⟨"RESET", commandWord true false 0, commandWord true false 0⟩ (commandWord rst enc value) = rst := by
  cases rst <;> simp [OpcodeRow.covers, commandWord_and, commandWord_inj]

/-- The ENCODE row: `rst` 0 and `enc` 1 (R51). -/
theorem covers_encodeRow {W : Nat} (rst enc : Bool) (value : BitVec W) :
    OpcodeRow.covers ⟨"ENCODE", commandWord false true 0, commandWord true true 0⟩ (commandWord rst enc value) =
      (!rst && enc) := by
  cases rst <;> cases enc <;> simp [OpcodeRow.covers, commandWord_and, commandWord_inj]

/-- The HOLD row: `rst` 0 and `enc` 0 (R51). -/
theorem covers_holdRow {W : Nat} (rst enc : Bool) (value : BitVec W) :
    OpcodeRow.covers ⟨"HOLD", commandWord false false 0, commandWord true true 0⟩ (commandWord rst enc value) =
      (!rst && !enc) := by
  cases rst <;> cases enc <;> simp [OpcodeRow.covers, commandWord_and, commandWord_inj]

end Sys2Proof
end

