-- ==== Sys2Proof/Laws/Operands.lean ====
section
/-! SUPPORT. The small laws of the operand functions (R53, R54, R73). -/

namespace Sys2Proof.Machine

theorem inRange_iff (v : Int) : InRange v ↔ -99 ≤ v ∧ v ≤ 99 := by
  simp only [InRange, Config.maxMag, magnitude]; omega

theorem inRange_or_out (v : Int) : InRange v ∨ 100 ≤ magnitude v := by
  simp only [InRange, Config.maxMag]; omega

theorem oor_eq_true_iff (v : Int) : oor v = true ↔ 100 ≤ magnitude v := by simp [oor]

theorem oor_of_inRange {v : Int} (h : InRange v) : oor v = false := by
  simp only [InRange, Config.maxMag] at h; simp only [oor, decide_eq_false_iff_not]; omega

theorem negative_eq_true_iff (v : Int) : negative v = true ↔ v < 0 := by simp [negative]

theorem tens_lt_ten {v : Int} (h : InRange v) : tens v < 10 := by
  simp only [InRange, Config.maxMag, tens] at *; omega

theorem units_lt_ten (v : Int) : units v < 10 := by simp only [units]; omega

theorem digits?_of_inRange {v : Int} (h : InRange v) :
    digits? v = some ⟨negative v, ⟨tens v, tens_lt_ten h⟩, ⟨units v, units_lt_ten v⟩⟩ := by
  simp [digits?, h]

theorem digits?_of_out {v : Int} (h : 100 ≤ magnitude v) : digits? v = none := by
  have : ¬ InRange v := by simp only [InRange, Config.maxMag]; omega
  simp [digits?, this]

/-- All that `digits?` can answer. -/
theorem digits?_eq_some_iff (v : Int) (d : Digits) :
    digits? v = some d ↔ InRange v ∧ d.negative = negative v ∧ d.tens.val = tens v ∧ d.units.val = units v := by
  rcases inRange_or_out v with h | h
  · rw [digits?_of_inRange h]
    obtain ⟨n, t, u⟩ := d
    simp only [Option.some.injEq, Digits.mk.injEq, Fin.ext_iff]
    constructor
    · rintro ⟨rfl, h1, h2⟩; exact ⟨h, rfl, h1.symm, h2.symm⟩
    · rintro ⟨-, rfl, h1, h2⟩; exact ⟨rfl, h1.symm, h2.symm⟩
  · rw [digits?_of_out h]
    have : ¬ InRange v := by simp only [InRange, Config.maxMag]; omega
    simp [this]

end Sys2Proof.Machine
end

