-- ==== Sys2Proof/Laws/State.lean ====
section
/-! SUPPORT. One lemma per field per update of the state. -/

namespace Sys2Proof.Machine

section WriteAll
variable {W : Nat} (s : State W) (f : Frame) (v e : Bool)
@[simp] theorem State.writeAll_frame : (s.writeAll f v e).frame = f := rfl
@[simp] theorem State.writeAll_frameValid : (s.writeAll f v e).frameValid = v := rfl
@[simp] theorem State.writeAll_rangeErr : (s.writeAll f v e).rangeErr = e := rfl
@[simp] theorem State.writeAll_inputs : (s.writeAll f v e).inputs = s.inputs := rfl
@[simp] theorem State.writeAll_inputDraws : (s.writeAll f v e).inputDraws = s.inputDraws := rfl
@[simp] theorem State.writeAll_draws : (s.writeAll f v e).draws = s.draws := rfl
end WriteAll

section AdvanceDraws
variable {W : Nat} (s : State W)
@[simp] theorem State.advanceDraws_frame : s.advanceDraws.frame = s.frame := rfl
@[simp] theorem State.advanceDraws_frameValid : s.advanceDraws.frameValid = s.frameValid := rfl
@[simp] theorem State.advanceDraws_rangeErr : s.advanceDraws.rangeErr = s.rangeErr := rfl
@[simp] theorem State.advanceDraws_inputs : s.advanceDraws.inputs = s.inputs := rfl
@[simp] theorem State.advanceDraws_inputDraws : s.advanceDraws.inputDraws = s.inputDraws := rfl
@[simp] theorem State.advanceDraws_draws : s.advanceDraws.draws = s.draws + 5 := rfl
end AdvanceDraws

section TakeRange
variable {W : Nat} (s : State W)
@[simp] theorem State.takeRange_frame : s.takeRange.frame = assemble s.unspecRows := rfl
@[simp] theorem State.takeRange_frameValid : s.takeRange.frameValid = true := rfl
@[simp] theorem State.takeRange_rangeErr : s.takeRange.rangeErr = true := rfl
@[simp] theorem State.takeRange_inputs : s.takeRange.inputs = s.inputs := rfl
@[simp] theorem State.takeRange_inputDraws : s.takeRange.inputDraws = s.inputDraws := rfl
@[simp] theorem State.takeRange_draws : s.takeRange.draws = s.draws + 5 := rfl
end TakeRange

section LoadFrame
variable {W : Nat} (s : State W) (rom : GlyphRom) (v : Int) (d : Digits)
@[simp] theorem State.loadFrame_frame : (s.loadFrame rom v d).frame = renderedFrame rom d := rfl
@[simp] theorem State.loadFrame_frameValid : (s.loadFrame rom v d).frameValid = true := rfl
@[simp] theorem State.loadFrame_rangeErr : (s.loadFrame rom v d).rangeErr = oor v := rfl
@[simp] theorem State.loadFrame_inputs : (s.loadFrame rom v d).inputs = s.inputs := rfl
@[simp] theorem State.loadFrame_inputDraws : (s.loadFrame rom v d).inputDraws = s.inputDraws := rfl
@[simp] theorem State.loadFrame_draws : (s.loadFrame rom v d).draws = s.draws := rfl
end LoadFrame

section PassEdge
variable {W : Nat} (s : State W)
@[simp] theorem State.passEdge_frame : s.passEdge.frame = s.frame := by unfold passEdge; split <;> rfl
@[simp] theorem State.passEdge_frameValid : s.passEdge.frameValid = s.frameValid := by unfold passEdge; split <;> rfl
@[simp] theorem State.passEdge_rangeErr : s.passEdge.rangeErr = s.rangeErr := by unfold passEdge; split <;> rfl
@[simp] theorem State.passEdge_draws : s.passEdge.draws = s.draws := by unfold passEdge; split <;> rfl
@[simp] theorem State.passEdge_inputs : s.passEdge.inputs = s.inputs.tail := by
  unfold passEdge; split <;> rename_i h <;> rw [h] <;> rfl

theorem State.passEdge_cons {s : State W} {cw : CommandWord W} {rest : List (CommandWord W)}
    (h : s.inputs = cw :: rest) : s.passEdge = { s with inputs := rest } := by
  unfold passEdge; rw [h]

theorem State.passEdge_nil {s : State W} (h : s.inputs = []) :
    s.passEdge = { s with inputDraws := s.inputDraws + 1 } := by
  unfold passEdge; rw [h]

theorem State.sampledCommand_cons {s : State W} {cw : CommandWord W} {rest : List (CommandWord W)} (h : s.inputs = cw :: rest) : s.sampledCommand = cw := by
  unfold sampledCommand; rw [h]

theorem State.sampledCommand_nil {s : State W} (h : s.inputs = []) :
    s.sampledCommand = Config.envCommand W s.inputDraws := by
  unfold sampledCommand; rw [h]
end PassEdge

section PresentTableWord
variable {W : Nat} (s : State W) (nbits w : Nat)
@[simp] theorem State.presentTableWord_frame : (s.presentTableWord nbits w).frame = s.frame := rfl
@[simp] theorem State.presentTableWord_frameValid : (s.presentTableWord nbits w).frameValid = s.frameValid := rfl
@[simp] theorem State.presentTableWord_rangeErr : (s.presentTableWord nbits w).rangeErr = s.rangeErr := rfl
@[simp] theorem State.presentTableWord_inputs :
    (s.presentTableWord nbits w).inputs = BitVec.ofNat (W + 2) (w % 2 ^ nbits) :: s.inputs := rfl
@[simp] theorem State.presentTableWord_inputDraws : (s.presentTableWord nbits w).inputDraws = s.inputDraws := rfl
@[simp] theorem State.presentTableWord_draws : (s.presentTableWord nbits w).draws = s.draws := rfl
theorem State.presentTableWord_passEdge : (s.presentTableWord nbits w).passEdge = s := rfl
theorem State.withFetchWord_eq_presentTableWord (s : State) : s.withFetchWord nbits w = s.presentTableWord nbits w := rfl
end PresentTableWord

end Sys2Proof.Machine
end

