-- ==== Sys2Proof/Laws/Ops.lean ====
section
/-! SUPPORT. What the shared operations do, said once: ENC, the frame it assembles, the placed glyph rows. -/

namespace Sys2Proof.Machine

section Assemble
variable (m : Fin 5 → RowMask)
@[simp] theorem assemble_row0 : (assemble m)[0] = 0 := rfl
@[simp] theorem assemble_row1 : (assemble m)[1] = m 0 := rfl
@[simp] theorem assemble_row2 : (assemble m)[2] = m 1 := rfl
@[simp] theorem assemble_row3 : (assemble m)[3] = m 2 := rfl
@[simp] theorem assemble_row4 : (assemble m)[4] = m 3 := rfl
@[simp] theorem assemble_row5 : (assemble m)[5] = m 4 := rfl
@[simp] theorem assemble_row6 : (assemble m)[6] = 0 := rfl
@[simp] theorem assemble_row7 : (assemble m)[7] = 0 := rfl
@[simp] theorem bodyRow_assemble (r : Fin 5) : bodyRow (assemble m) r = m r := by fin_cases r <;> rfl
end Assemble

/-- Two assembled frames are equal exactly when their five row masks are. -/
theorem assemble_inj {m n : Fin 5 → RowMask} (h : assemble m = assemble n) : m = n := by
  funext r
  have e (k : Nat) (hk : k < 8) : (assemble m)[k] = (assemble n)[k] := by rw [h]
  fin_cases r
  · exact e 1 (by omega)
  · exact e 2 (by omega)
  · exact e 3 (by omega)
  · exact e 4 (by omega)
  · exact e 5 (by omega)

/-- ENC of an in-range operand: its digits' frame, no fault (R78). -/
theorem enc_of_inRange {v : Int} (h : InRange v) (rom : GlyphRom) (unspec : Fin 5 → RowMask) :
    enc rom unspec v =
      (renderedFrame rom ⟨negative v, ⟨tens v, tens_lt_ten h⟩, ⟨units v, units_lt_ten v⟩⟩, false) := by
  simp [enc, digits?_of_inRange h]

/-- ENC of an out-of-range operand: blank rows 0, 6, 7 around five open values, and the fault (R88). -/
theorem enc_of_out {v : Int} (h : 100 ≤ magnitude v) (rom : GlyphRom) (unspec : Fin 5 → RowMask) :
    enc rom unspec v = (assemble unspec, true) := by
  simp [enc, digits?_of_out h]

/-- ENC leaves rows 0, 6 and 7 blank for every operand (R78, R88). -/
theorem enc_blank_rows (rom : GlyphRom) (unspec : Fin 5 → RowMask) (v : Int) :
    (enc rom unspec v).1[0] = 0 ∧ (enc rom unspec v).1[6] = 0 ∧ (enc rom unspec v).1[7] = 0 := by
  unfold enc; split <;> simp [renderedFrame]

theorem encodeWith_of_inRange {W : Nat} {v : Int} (h : InRange v) (rom : GlyphRom) (s : State W) :
    encodeWith rom v s =
      .next (s.loadFrame rom v ⟨negative v, ⟨tens v, tens_lt_ten h⟩, ⟨units v, units_lt_ten v⟩⟩) := by
  simp [encodeWith, digits?_of_inRange h]

theorem encodeWith_of_out {W : Nat} {v : Int} (h : 100 ≤ magnitude v) (rom : GlyphRom) (s : State W) :
    encodeWith rom v s = .next s.takeRange := by
  simp [encodeWith, digits?_of_out h]

theorem blockExec_reset {W : Nat} (rom : GlyphRom) (s : State W) :
    blockExec rom .reset s = .next (s.writeAll Frame.blank false false) := rfl

theorem blockExec_hold {W : Nat} (rom : GlyphRom) (s : State W) : blockExec rom .hold s = .next s := rfl

theorem blockExec_encode {W : Nat} (rom : GlyphRom) (v : Int) (s : State W) :
    blockExec rom (.encode v) s = encodeWith rom v s := rfl

/-- The host's `exec` is the block's operation at the block's own table. -/
theorem exec_eq_blockExec (i : Instr) (s : State) : exec i s = blockExec Config.glyphRom i s := by cases i <;> rfl

theorem exec_reset (s : State) : exec .reset s = .next (s.writeAll Frame.blank false false) := rfl

theorem exec_hold (s : State) : exec .hold s = .next s := rfl

theorem exec_encode_of_inRange {v : Int} (h : InRange v) (s : State) :
    exec (.encode v) s =
      .next (s.loadFrame Config.glyphRom v ⟨negative v, ⟨tens v, tens_lt_ten h⟩, ⟨units v, units_lt_ten v⟩⟩) :=
  encodeWith_of_inRange h Config.glyphRom s

theorem exec_encode_of_out {v : Int} (h : 100 ≤ magnitude v) (s : State) :
    exec (.encode v) s = .next s.takeRange :=
  encodeWith_of_out h Config.glyphRom s

end Sys2Proof.Machine
end

