-- ==== Sys2Proof/Laws/PerInstr.lean ====
section
/-! SUPPORT. Statements made per operation: the canonical word of an operation lies in its own opcode-table row. -/

namespace Sys2Proof.Laws.CanonicalWord

/-- The canonical command word of an operation belongs to the table row that bears its mnemonic (R51, R60). -/
def Statement (i : Instr) : Prop :=
  ∀ W : Nat, ∃ row ∈ opcodeTable W, row.mnemonic = i.mnemonic ∧ row.covers (encodeCommand W i) = true

theorem reset : Statement .reset :=
  fun _ => ⟨_, .head _, rfl, covers_resetRow _ _ _⟩

theorem encode (v : Int) : Statement (.encode v) :=
  fun _ => ⟨_, .tail _ (.head _), rfl, covers_encodeRow _ _ _⟩

theorem hold : Statement .hold :=
  fun _ => ⟨_, .tail _ (.tail _ (.head _)), rfl, covers_holdRow _ _ _⟩

end Sys2Proof.Laws.CanonicalWord
end

