-- ==== Sys2Proof/Laws/Step.lean ====
section
/-! SUPPORT. What one step can do, said once. -/

namespace Sys2Proof.Machine

/-- Everything an operation of a block can do, and the fault it raises: it resets, loads the frame of an in-range
operand, takes the RANGE fault, or holds. -/
theorem blockExec_cases {W : Nat} (rom : GlyphRom) (i : Instr) (s : State W) :
    (i = .reset ∧ blockExec rom i s = .next (s.writeAll Frame.blank false false) ∧ Safety.faultOf i = none) ∨
    (∃ v d, i = .encode v ∧ InRange v ∧ digits? v = some d ∧
      blockExec rom i s = .next (s.loadFrame rom v d) ∧ Safety.faultOf i = none) ∨
    (∃ v, i = .encode v ∧ 100 ≤ magnitude v ∧ blockExec rom i s = .next s.takeRange ∧
      Safety.faultOf i = some .range) ∨
    (i = .hold ∧ blockExec rom i s = .next s ∧ Safety.faultOf i = none) := by
  cases i with
  | reset => exact .inl ⟨rfl, blockExec_reset rom s, rfl⟩
  | hold => exact .inr (.inr (.inr ⟨rfl, blockExec_hold rom s, rfl⟩))
  | encode v =>
    rw [blockExec_encode]
    rcases inRange_or_out v with h | h
    · exact .inr (.inl ⟨v, _, rfl, h, digits?_of_inRange h, encodeWith_of_inRange h rom s,
        by simp [Safety.faultOf, oor_of_inRange h]⟩)
    · exact .inr (.inr (.inl ⟨v, rfl, h, encodeWith_of_out h rom s,
        by simp [Safety.faultOf, (oor_eq_true_iff v).2 h]⟩))

/-- `blockExec_cases` for the host's `exec`. -/
theorem exec_cases (i : Instr) (s : State) :
    (i = .reset ∧ exec i s = .next (s.writeAll Frame.blank false false) ∧ Safety.faultOf i = none) ∨
    (∃ v d, i = .encode v ∧ InRange v ∧ digits? v = some d ∧
      exec i s = .next (s.loadFrame Config.glyphRom v d) ∧ Safety.faultOf i = none) ∨
    (∃ v, i = .encode v ∧ 100 ≤ magnitude v ∧ exec i s = .next s.takeRange ∧ Safety.faultOf i = some .range) ∨
    (i = .hold ∧ exec i s = .next s ∧ Safety.faultOf i = none) := by
  rw [exec_eq_blockExec]; exact blockExec_cases Config.glyphRom i s

/-- A step is the operation of its edge, on the state with the edge's inputs gone. -/
theorem step_eq_exec (s : State) : step s = exec s.operation s.passEdge := rfl

/-- The host's `step` is the block's step at the default width and the block's own table. -/
theorem step_eq_blockStep (s : State) : step s = blockStep Config.glyphRom s := exec_eq_blockExec s.operation s.passEdge

/-- A step of a block on given inputs runs the decoded command word, with that word used up. -/
theorem blockStep_of_inputs_cons {W : Nat} (rom : GlyphRom) {s : State W} {cw : CommandWord W}
    {rest : List (CommandWord W)} (h : s.inputs = cw :: rest) :
    blockStep rom s = blockExec rom (decodeCommand cw) { s with inputs := rest } := by
  rw [blockStep, State.operation, State.sampledCommand_cons h, State.passEdge_cons h]

/-- `blockStep_of_inputs_cons` for the host's `step`. -/
theorem step_of_inputs_cons {s : State} {cw : CommandWord Config.valueWidth}
    {rest : List (CommandWord Config.valueWidth)} (h : s.inputs = cw :: rest) :
    step s = exec (decodeCommand cw) { s with inputs := rest } := by
  rw [step_eq_blockStep, exec_eq_blockExec, blockStep_of_inputs_cons _ h]

theorem core_run_zero (s : State) : core.run 0 s = .next s := rfl

/-- A run whose first step answers a next state goes on from it. -/
theorem core_run_succ {s t : State} (h : step s = .next t) (k : Nat) : core.run (k + 1) s = core.run k t := by
  have e : core.step s = .next t := h
  simp only [Host.Core.run, e]

/-- `core_run_succ` for a block of any parameters. -/
theorem blockCore_run_succ (p : Params) {s t : State p.width} (h : blockStep p.glyphRom s = .next t) (k : Nat) :
    (blockCore p).run (k + 1) s = (blockCore p).run k t := by
  have e : (blockCore p).step s = .next t := h
  simp only [Host.Core.run, e]

end Sys2Proof.Machine
end

