-- ==== Sys2Proof/Tests/Slice0.lean ====
section
/-! SUPPORT. Tests, whose expected results are the spec's (rule or section named at each), and for every statement
with hypotheses a witness that meets them. -/

namespace Sys2Proof.Tests

open Sys2Proof.Machine Sys2Proof.Safety

/-! ## Well-formedness, words, lines -/

/-- R52, R60: the operands of 16 and of 8 bits end at these integers. -/
theorem test_wf_accepts_bounds :
    (Instr.encode 32767).wellFormed = true ∧ (Instr.encode (-32768)).wellFormed = true ∧
    (Instr.encode 127).wf 8 = true ∧ (Instr.encode (-128)).wf 8 = true := by decide

/-- R60: an operand above the width's range is refused (the upper check). -/
theorem test_wf_refuses_too_large :
    (Instr.encode 32768).wellFormed = false ∧ (Instr.encode 128).wf 8 = false := by decide

/-- R60: an operand below the width's range is refused (the lower check). -/
theorem test_wf_refuses_too_small :
    (Instr.encode (-32769)).wellFormed = false ∧ (Instr.encode (-129)).wf 8 = false := by decide

/-- R51, the pattern string of RESET: bit 17 is 1, the rest is ignored; 95_test_vectors.md section 4. -/
theorem test_decode_reset :
    decodeCommand (W := 16) 0b100000000000000000 = .reset ∧ decodeCommand (W := 16) 0b110000000000000000 = .reset ∧
    decodeCommand (W := 16) 0b111111111111111111 = .reset := by decide

/-- R51, the pattern string of ENCODE: bits 17:16 are 01, then the operand; 95_test_vectors.md sections 2.2, 4. -/
theorem test_decode_encode :
    decodeCommand (W := 16) 0b010000000000011001 = .encode 25 ∧
    decodeCommand (W := 16) 0b011111111111101001 = .encode (-23) ∧
    decodeCommand (W := 16) 0b011000000000000000 = .encode (-32768) ∧
    decodeCommand (W := 16) 0b010111111111111111 = .encode 32767 := by decide

/-- R51, the pattern string of HOLD: bits 17:16 are 00, the rest is ignored; 95_test_vectors.md section 4. -/
theorem test_decode_hold :
    decodeCommand (W := 16) 0b000000000000000000 = .hold ∧ decodeCommand (W := 16) 0b001010101111001101 = .hold := by
  decide

/-- R51, R60: the canonical words. -/
theorem test_encode_words :
    encodeCommand 16 .reset = 0x20000 ∧ encodeCommand 16 .hold = 0x00000 ∧
    encodeCommand 16 (.encode (-5)) = 0x1FFFB ∧ encodeCommand 16 (.encode 99) = 0x10063 := by decide

/-- Log 7: the container refuses a bit above the command word and a word cut short, by name. -/
theorem test_bytes_refused :
    decodeBytes 16 [0x00, 0x00, 0x04] = .error .noSuchInput ∧ decodeBytes 16 [0x00, 0x00] = .error .truncated ∧
    decodeTableWord 24 0x40000 = none := by
  refine ⟨rfl, rfl, rfl⟩

/-- R51 at `W = 8`: bit 9 is `rst`, bit 8 is `enc`, the operand is bits 7:0. -/
theorem test_decode_width_8 :
    decodeCommand (W := 8) 0b0111101001 = .encode (-23) ∧ decodeCommand (W := 8) 0b1101100100 = .reset ∧
    decodeTableWordAt 8 16 0x017F = some (.encode 127) ∧ decodeTableWordAt 8 16 0x0400 = none := by decide

/-- R60: `ENCODE -5` with a comment, and `ENCODE 32768`, a syntax error. -/
theorem test_lines :
    readLine 16 ['E', 'N', 'C', 'O', 'D', 'E', ' ', '-', '5', ' ', ';', 'x'] = .ok (.encode (-5)) ∧
    readLine 16 ['E', 'N', 'C', 'O', 'D', 'E', ' ', '3', '2', '7', '6', '8'] = .error .outOfWidth ∧
    readLine 16 ['H', 'O', 'L', 'D', ' ', '1'] = .error .unknown := by
  refine ⟨rfl, rfl, rfl⟩

/-! ## The operations -/

/-- A state for the tests: something on the display, both flags set, one command waiting. -/
def someState : State :=
  { frame := #v[0x11, 0x22, 0x33, 0x44, 0x55, 0x66, 0x77, 0x88], frameValid := true, rangeErr := true,
    inputs := [0x00000], inputDraws := 3, draws := 7 }

/-- `GLYPH_ALT` (95_test_vectors.md section 2.7). -/
def glyphAlt : GlyphRom := fun g =>
  match g with
  | 0 => glyphOf 1 1 2 4 1
  | 1 => glyphOf 2 1 2 4 1
  | 2 => glyphOf 3 1 2 4 1
  | 3 => glyphOf 4 1 2 4 1
  | 4 => glyphOf 5 1 2 4 1
  | 5 => glyphOf 6 1 2 4 1
  | 6 => glyphOf 7 1 2 4 1
  | 7 => glyphOf 1 2 2 4 1
  | 8 => glyphOf 2 2 2 4 1
  | 9 => glyphOf 3 2 2 4 1
  | 10 => glyphOf 4 0 0 0 4

/-- ENC with rows for the open values that no glyph makes. -/
def encOf (rom : GlyphRom) (v : Int) : Frame × Bool := enc rom (fun _ => 0xFF) v

/-- The frame bus of ENC's rows. -/
def busOf (rom : GlyphRom) (v : Int) : BitVec 64 := frameBus (encOf rom v).1

/-- 95_test_vectors.md sections 2.3 and 2.7: one vector of each layout and more, with both tables. -/
theorem test_encode_frames :
    busOf Config.glyphRef 0 = 0x0000070505050700 ∧ busOf Config.glyphRef 25 = 0x0000774177147700 ∧
    busOf Config.glyphRef 10 = 0x0000772525652700 ∧ busOf Config.glyphRef (-5) = 0x00000701E7040700 ∧
    busOf Config.glyphRef (-23) = 0x00000E08EE020E00 ∧ busOf Config.glyphRef (-10) = 0x00000E04E40C0400 ∧
    busOf glyphAlt 7 = 0x0000010402020100 ∧ busOf glyphAlt 99 = 0x0000114422223300 ∧
    busOf glyphAlt (-1) = 0x0000810402018200 ∧ busOf glyphAlt (-99) = 0x0000820804048600 := by decide +kernel

/-- 95_test_vectors.md section 2.6, the boundary: 99 and -99 are defined, 100 and -100 are not, nor is -32768. -/
theorem test_encode_range_boundary :
    (encOf Config.glyphRef 99).2 = false ∧ (encOf Config.glyphRef (-99)).2 = false ∧
    encOf Config.glyphRef 100 = (#v[0x00, 0xFF, 0xFF, 0xFF, 0xFF, 0xFF, 0x00, 0x00], true) ∧
    (encOf Config.glyphRef (-100)).2 = true ∧ (encOf Config.glyphRef (-32768)).2 = true := by decide

/-- 95_test_vectors.md section 3, X1: RESET from any state. -/
theorem test_reset : exec .reset someState = .next { State.reset with inputs := [0x00000], inputDraws := 3, draws := 7 } := rfl

/-- 95_test_vectors.md section 3, X3: `rst` wins over `enc`, an out-of-range operand is not examined. -/
theorem test_reset_wins :
    step { someState with inputs := [0x303E8] } = .next { State.reset with inputs := [], inputDraws := 3, draws := 7 } := rfl

/-- 95_test_vectors.md section 3, H4: HOLD keeps the unspecified rows as they were drawn, and `RANGE_ERR`. -/
theorem test_hold_keeps_drawn_rows : exec .hold someState.takeRange = .next someState.takeRange := rfl

/-- 95_test_vectors.md section 3, H2: HOLD with a garbage operand changes nothing but uses up its command. -/
theorem test_hold_ignores_value :
    step { someState with inputs := [0x0FFFF] } = .next { someState with inputs := [] } := rfl

/-! ## A well-formed table -/

/-- Reads the rendered information off a frame of `GLYPH_REF`, by the place of the minus bar and of the digits. -/
def readRef (f : Frame) : Info :=
  let columns (shift : Nat) : BitVec 15 :=
    f[5].extractLsb' shift 3 ++ f[4].extractLsb' shift 3 ++ f[3].extractLsb' shift 3 ++
      f[2].extractLsb' shift 3 ++ f[1].extractLsb' shift 3
  let digit (w : BitVec 15) : Nat := allDigits.findIdx fun d => glyphWord Config.glyphRef (digitIndex d) == w
  if f[3].getLsbD 7 then
    if f[1].getLsbD 3 || f[2].getLsbD 3 then ⟨true, digit (columns 1), none⟩
    else ⟨true, 0, some (digit (columns 0))⟩
  else if columns 4 = 0 then ⟨false, 0, some (digit (columns 0))⟩
  else ⟨false, digit (columns 4), some (digit (columns 0))⟩

theorem readRef_of_every_frame :
    ∀ k : Nat, k < 199 → readRef (encOf Config.glyphRef ((k : Int) - 99)).1 = info ((k : Int) - 99) := by
  decide +kernel

theorem readRef_enc (unspec : Fin 5 → RowMask) {v : Int} (h : InRange v) :
    readRef (enc Config.glyphRef unspec v).1 = info v := by
  have hr := (inRange_iff v).1 h
  have e : (enc Config.glyphRef unspec v).1 = (encOf Config.glyphRef v).1 := by
    rw [encOf, enc_of_inRange h, enc_of_inRange h]
  have k : ((v + 99).toNat : Int) - 99 = v := by omega
  have := readRef_of_every_frame (v + 99).toNat (by omega)
  rwa [k, ← e] at this

/-- R34: `GLYPH_REF` satisfies `GLYPH_WF`, so the statements that assume `GLYPH_WF` are about something. -/
theorem glyphRef_wf : GlyphWf Config.glyphRef where
  nonBlank := by unfold GlyphNonBlank; decide
  digitsDistinct := by unfold GlyphDigitsDistinct; decide
  distinguishable := by
    intro unspec v w hv hw h
    rw [← readRef_enc unspec hv, ← readRef_enc unspec hw, h]

/-! ## Witnesses: for each statement with hypotheses, values that meet them, at the ends of their ranges -/

/-- The state reached from reset by `ENCODE 5`, with `HOLD` and `ENCODE 100` waiting. -/
def encodedState : State :=
  { State.reset.loadFrame Config.glyphRom 5 ⟨false, 0, 5⟩ with inputs := [0x00000, 0x10064] }

theorem encodedState_meaning : FrameMeaning encodedState where
  blankRows := ⟨rfl, rfl, rfl⟩
  errIsValid := fun _ => rfl
  blankBeforeEncode := fun h => Bool.noConfusion h
  validIsRendering := fun _ _ => ⟨5, by decide, fun _ => rfl⟩

theorem step_hold_of {s : State} {cw : CommandWord Config.valueWidth} {rest : List (CommandWord Config.valueWidth)}
    (h : s.inputs = cw :: rest) (hd : decodeCommand cw = .hold) : step s = .next { s with inputs := rest } := by
  rw [step_of_inputs_cons h, hd, exec_hold]

theorem witness_TopBitsSelectOperation : fitsWidth 16 (-32768) = true ∧ fitsWidth 16 32767 = true := by decide

theorem witness_DecodeOfEncodeEveryWidth :
    8 ≤ 8 ∧ (Instr.encode (-128)).wf 8 = true ∧ (Instr.encode 127).wf 8 = true ∧ Instr.reset.wf 8 = true ∧
    Instr.hold.wf 8 = true := by decide

theorem witness_ByteContainerRoundTrip :
    8 ≤ 8 ∧ (Instr.encode (-128)).wf 8 = true ∧ 4 ≤ (0x04 : Byte).toNat ∧
    ([0x00] : List Byte).length < containerBytes 8 := by decide

theorem witness_CommandLineRoundTrip :
    (Instr.encode (-128)).wf 8 = true ∧ fitsWidth 8 128 = false ∧ fitsWidth 8 (-129) = false := by decide

theorem witness_OperandIsTwosComplement :
    8 ≤ 8 ∧ -(2 : Int) ^ (8 - 1) ≤ -128 ∧ (-128 : Int) ≤ 2 ^ (8 - 1) - 1 ∧ (127 : Int) ≤ 2 ^ (8 - 1) - 1 := by decide

theorem witness_MagnitudeIsExact : 8 ≤ 8 ∧ (0 : Int) ≤ 0 ∧ (-1 : Int) < 0 := by decide

theorem witness_digits :
    digits? 0 = some ⟨false, 0, 0⟩ ∧ digits? 9 = some ⟨false, 0, 9⟩ ∧ digits? 10 = some ⟨false, 1, 0⟩ ∧
    digits? 99 = some ⟨false, 9, 9⟩ ∧ digits? (-1) = some ⟨true, 0, 1⟩ ∧ digits? (-9) = some ⟨true, 0, 9⟩ ∧
    digits? (-10) = some ⟨true, 1, 0⟩ ∧ digits? (-99) = some ⟨true, 9, 9⟩ := by decide

theorem witness_layouts :
    Digits.layout ⟨false, 0, 9⟩ = .pos1 ∧ Digits.layout ⟨false, 1, 0⟩ = .pos2 ∧
    Digits.layout ⟨true, 0, 9⟩ = .neg1 ∧ Digits.layout ⟨true, 1, 0⟩ = .neg2 := by decide

theorem witness_WidthDoesNotChangeOperand : 8 ≤ 8 ∧ 8 ≤ 16 := by decide

theorem witness_ranges :
    InRange (-99) ∧ InRange 99 ∧ InRange (-10) ∧ InRange (-9) ∧ ¬ InRange 100 ∧ ¬ InRange (-100) ∧
    100 ≤ (-32768 : Int).natAbs ∧ 100 ≤ (100 : Int).natAbs := by decide

theorem witness_EncodeNeg2ShowsMinusAndTens :
    (-99 : Int) ≤ -99 ∧ (-99 : Int) ≤ -10 ∧ (-90 : Int) ≤ -10 ∧ (99 : Int).toNat / 10 = (90 : Int).toNat / 10 := by decide

theorem witness_SignSymmetryOfSingleDigits : (1 : Int) ≤ 9 ∧ ∃ r, Config.glyphRef 10 r ≠ 0 := by decide

theorem witness_DroppedUnitsDigitIsNoFault : 1 ≤ 1 ∧ 1 ≤ 9 ∧ 0 ≤ 9 ∧ 9 ≤ 9 := by decide

theorem witness_OperationsAreIdempotent :
    InRange 99 ∧ (∃ t, exec (.encode 99) someState = .next t) ∧ (∃ t, exec .reset someState = .next t) ∧
    ¬ InRange 100 ∧ ∃ t u, exec (.encode 100) someState = .next t ∧ exec (.encode 100) t = .next u :=
  ⟨by decide, ⟨_, exec_encode_of_inRange (by decide) _⟩, ⟨_, exec_reset _⟩, by decide, _, _,
    exec_encode_of_out (by decide) _, exec_encode_of_out (by decide) _⟩

theorem witness_ResetClearsEverything : ∃ t, exec .reset someState = .next t := ⟨_, exec_reset _⟩

theorem witness_HoldChangesNothing :
    (∀ cw ∈ ([0x00000, 0x0ABCD] : List (CommandWord Config.valueWidth)), decodeCommand cw = .hold) ∧
    ∀ words : List (CommandWord Config.valueWidth), ({ someState with inputs := words ++ [0x10019] } : State).inputs = words ++ [0x10019] :=
  ⟨by
    intro cw hw
    rcases List.mem_pair.1 hw with rfl | rfl <;> decide, fun _ => rfl⟩

theorem witness_StepRunsSampledOperation : someState.inputs = 0x00000 :: [] ∧ State.reset.inputs = [] := ⟨rfl, rfl⟩

theorem witness_PresentedWordRunsNext :
    decodeTableWord 24 0x1FFE9 = some (.encode (-23)) ∧ decodeTableWord 24 0x3FFFF = some .reset ∧
    decodeTableWord 24 0x0FFFF = some .hold := by decide

theorem witness_PriorityOfCommandInputs :
    ({ someState with inputs := [0x303E8] } : State).inputs = [commandWord true true 1000#16] ∧
    ({ someState with inputs := [0x10064] } : State).inputs = [commandWord false true 100#16] ∧
    ({ someState with inputs := [0x0FFFF] } : State).inputs = [commandWord false false 0xFFFF#16] := by decide

theorem witness_ModelFieldsFrame :
    (∃ t, exec (.encode 99) someState = .next t ∧ faultOf (.encode 99) = none) ∧
    (∃ t, exec (.encode 100) someState = .next t ∧ faultOf (.encode 100) = some .range) ∧
    (∃ t, step someState = .next t) ∧ ∃ t, step State.reset = .next t :=
  ⟨⟨_, exec_encode_of_inRange (by decide) _, rfl⟩, ⟨_, exec_encode_of_out (by decide) _, rfl⟩,
    ⟨_, step_hold_of rfl (by decide)⟩, by
    rcases exec_cases State.reset.operation State.reset.passEdge with
      ⟨_, h, _⟩ | ⟨_, _, _, _, _, h, _⟩ | ⟨_, _, _, h, _⟩ | ⟨_, h, _⟩ <;> exact ⟨_, h⟩⟩

theorem witness_FlagsAfterEveryOperation :
    (∃ t, exec .reset someState = .next t) ∧ (∃ t, exec (.encode (-100)) someState = .next t) ∧
    ∃ t, exec .hold someState = .next t :=
  ⟨⟨_, exec_reset _⟩, ⟨_, exec_encode_of_out (by decide) _⟩, ⟨_, exec_hold _⟩⟩

/-- A block of 8 bits, with `RESET`, `ENCODE -128`, `ENCODE -5` and `HOLD` waiting. -/
def narrowState : State 8 :=
  { someState with inputs := [0x200, 0x180, 0x1FB, 0x000] }

/-- R71, R88 at `W = 8`: the most negative operand is out of range; and 95_test_vectors.md section 3, X1. -/
theorem test_narrow_block :
    blockStep Config.glyphRef narrowState =
      .next { narrowState with frame := Frame.blank, frameValid := false, rangeErr := false, inputs := [0x180, 0x1FB, 0x000] } ∧
    stepFault ({ narrowState with inputs := [0x180] } : State 8) = some .range := ⟨rfl, rfl⟩

theorem witness_PortsOfEveryWidth :
    8 ≤ 8 ∧ narrowState.inputs = commandWord true false 0 :: [0x180, 0x1FB, 0x000] ∧
    ({ narrowState with inputs := [0x180] } : State 8).inputs = [commandWord false true 0x80] ∧
    ({ narrowState with inputs := [0x07F] } : State 8).inputs = [commandWord false false 0x7F] ∧
    (State.resetAt 8).inputs = [] := by decide

theorem witness_WiderBlockDoesTheSame (rom : GlyphRom) :
    8 ≤ 8 ∧ 8 ≤ 16 ∧ narrowState.inputs ≠ [] ∧ (⟨8, Nat.le_refl 8, rom⟩ : Params).width ≤ Config.valueWidth ∧
    4 ≤ narrowState.inputs.length := by
  refine ⟨by decide, by decide, by decide, (by decide : 8 ≤ 16), by decide⟩

theorem witness_PresentedWordRunsNextAtEveryWidth :
    decodeTableWordAt 8 16 0x0180 = some (.encode (-128)) ∧ decodeTableWordAt 8 10 0x3FF = some .reset ∧
    decodeTableWordAt 8 16 0x00FF = some .hold := by decide

theorem witness_RangeErrIsSetAndCleared :
    ∃ t, step { someState with inputs := [0x10064] } = .next t ∧
      stepFault ({ someState with inputs := [0x10064] } : State) = some .range := ⟨_, rfl, rfl⟩

theorem witness_SafeRunKeepsRangeErrClear :
    SafeRun 3 ({ State.reset with inputs := [0x20000, 0x10063, 0x00000] } : State) ∧
    ({ State.reset with inputs := [0x20000, 0x10063, 0x00000] } : State).rangeErr = false := ⟨rfl, rfl⟩

theorem witness_BlankRowsInvariant :
    (∃ t, Instr.encode 100 ≠ .hold ∧ exec (.encode 100) someState = .next t) ∧
    ∃ t, BlankRows encodedState ∧ step encodedState = .next t :=
  ⟨⟨_, by decide, exec_encode_of_out (by decide) _⟩, _, encodedState_meaning.blankRows, step_hold_of rfl (by decide)⟩

theorem witness_BlankRowsAfterReset : ∃ t, exec .reset someState = .next t ∧ core.run 0 t = .next t :=
  ⟨_, exec_reset _, rfl⟩

theorem witness_FrameMeaningInvariant : ∃ t, FrameMeaning encodedState ∧ step encodedState = .next t :=
  ⟨_, encodedState_meaning, step_hold_of rfl (by decide)⟩

theorem witness_FrameMeaningInvariant_block :
    ∃ t, FrameMeaningOf Config.glyphRom encodedState ∧ blockStep Config.glyphRom encodedState = .next t :=
  ⟨_, encodedState_meaning, (step_eq_blockStep _).symm.trans (step_hold_of rfl (by decide))⟩

theorem witness_AnyCommandButHoldDefinesTheState :
    ∃ t, State.operation (W := 16) (State.powerUp [commandWord true false 0]) ≠ .hold ∧
      step (State.powerUp [commandWord true false 0]) = .next t := by
  have h := step_of_inputs_cons (s := State.powerUp [commandWord true false 0]) rfl
  rw [decodeCommand_commandWord, exec_reset] at h
  exact ⟨_, by decide, h⟩

theorem witness_LastCommandDeterminesOutputs (c d e f : CommandWord Config.valueWidth) :
    ({ someState with inputs := [c, d, e, f] } : State).inputs = [c] ++ d :: ([e] ++ [f]) := rfl

theorem witness_lastCommands :
    (∀ w ∈ ([0x0FFFF] : List (CommandWord Config.valueWidth)), decodeCommand w = .hold) ∧
    decodeCommand (W := 16) 0x1FF9D = .encode (-99) ∧ InRange (-99) ∧ decodeCommand (W := 16) 0x20000 = .reset ∧
    decodeCommand (W := 16) 0x10064 = .encode 100 ∧ ¬ InRange 100 := by
  refine ⟨?_, by decide⟩
  intro w hw
  rcases List.mem_singleton.1 hw with rfl
  decide

theorem witness_glyphTables :
    GlyphWf Config.glyphRef ∧ LayoutsDistinguishable Config.glyphRef ∧ GlyphNonBlank Config.glyphRef ∧
    InRange (-9) ∧ InRange (-10) :=
  ⟨glyphRef_wf, glyphRef_wf.distinguishable, glyphRef_wf.nonBlank, by decide, by decide⟩

end Sys2Proof.Tests
end

section
/-! SUPPORT. The state family: the blank rows (R12) and the two flags (R14, R15), for a block of any width and table,
and the two statements of the family. -/

namespace Sys2Proof.Machine

open Sys2Proof.Safety

section BlankRows
variable {W : Nat}

theorem blankRows_of_frame_eq_blank {s : State W} (h : s.frame = Frame.blank) : BlankRows s := by
  rw [BlankRows, h]; exact ⟨rfl, rfl, rfl⟩

theorem blankRows_of_frame_eq_assemble {s : State W} {m : Fin 5 → RowMask} (h : s.frame = assemble m) :
    BlankRows s := by
  simp [BlankRows, h]

@[simp] theorem blankRows_passEdge (s : State W) : BlankRows s.passEdge ↔ BlankRows s := by simp [BlankRows]

/-- RESET writes the blank frame, and ENCODE an assembled one, in range or not (R23, R78, R88). -/
theorem blockExec_establishes_blankRows {rom : GlyphRom} {i : Instr} {s t : State W} (hi : i ≠ .hold)
    (h : blockExec rom i s = .next t) : BlankRows t := by
  rcases blockExec_cases rom i s with ⟨_, e, _⟩ | ⟨v, d, _, _, _, e, _⟩ | ⟨v, _, _, e, _⟩ | ⟨hold, _, _⟩
  · cases e.symm.trans h; exact blankRows_of_frame_eq_blank (State.writeAll_frame ..)
  · cases e.symm.trans h; exact blankRows_of_frame_eq_assemble (State.loadFrame_frame ..)
  · cases e.symm.trans h; exact blankRows_of_frame_eq_assemble (State.takeRange_frame _)
  · exact absurd hold hi

theorem blockExec_keeps_blankRows {rom : GlyphRom} {i : Instr} {s t : State W} (hs : BlankRows s)
    (h : blockExec rom i s = .next t) : BlankRows t := by
  by_cases hi : i = .hold
  · subst hi; cases h; exact hs
  · exact blockExec_establishes_blankRows hi h

theorem blockStep_keeps_blankRows {rom : GlyphRom} {s t : State W} (hs : BlankRows s)
    (h : blockStep rom s = .next t) : BlankRows t :=
  blockExec_keeps_blankRows ((blankRows_passEdge s).2 hs) h

end BlankRows

/-- The block never stops: every operation answers a next state (R58, R110). -/
theorem exec_completes (i : Instr) (s : State) : ∃ t, exec i s = .next t := by
  rcases exec_cases i s with ⟨_, e, _⟩ | ⟨_, _, _, _, _, e, _⟩ | ⟨_, _, _, e, _⟩ | ⟨_, e, _⟩ <;> exact ⟨_, e⟩

theorem step_completes (s : State) : ∃ t, step s = .next t := exec_completes s.operation s.passEdge

/-- What every step keeps, every run keeps. -/
theorem core_run_keeps {P : State → Prop} (hstep : ∀ s t, P s → step s = .next t → P t) (k : Nat) {s u : State}
    (hs : P s) (h : core.run k s = .next u) : P u := by
  induction k generalizing s with
  | zero => cases h; exact hs
  | succ k ih =>
    obtain ⟨t, ht⟩ := step_completes s
    rw [core_run_succ ht] at h
    exact ih (hstep s t hs ht) h

section Flags
variable {W : Nat}

/-- ENCODE sets `FRAME_VALID` and writes `RANGE_ERR` with the `oor` of its operand (R14, R15, R70, R88). -/
theorem encodeWith_flags {rom : GlyphRom} {v : Int} {s t : State W} (h : encodeWith rom v s = .next t) :
    t.frameValid = true ∧ t.rangeErr = oor v := by
  rcases inRange_or_out v with hv | hv
  · rw [encodeWith_of_inRange hv] at h; cases h; exact ⟨rfl, rfl⟩
  · rw [encodeWith_of_out hv] at h; cases h; exact ⟨rfl, ((oor_eq_true_iff v).2 hv).symm⟩

/-- ENCODE overwrites both flags without reading them (R13, R14, R15). -/
theorem encodeWith_ignores_flags (rom : GlyphRom) (v : Int) (s : State W) (valid err : Bool) :
    encodeWith rom v { s with frameValid := valid, rangeErr := err } = encodeWith rom v s := by
  rcases inRange_or_out v with hv | hv
  · rw [encodeWith_of_inRange hv, encodeWith_of_inRange hv]; rfl
  · rw [encodeWith_of_out hv, encodeWith_of_out hv]; rfl

/-- The flags are no input of RESET and ENCODE. -/
theorem exec_ignores_flags {i : Instr} (hi : i ≠ .hold) (s : State) (valid err : Bool) :
    exec i { s with frameValid := valid, rangeErr := err } = exec i s := by
  cases i with
  | reset => rfl
  | encode v => exact encodeWith_ignores_flags Config.glyphRom v s valid err
  | hold => exact absurd rfl hi

/-- The frame that an operation leaves does not depend on the flags before it (R14, R15). -/
theorem exec_frame_ignores_flags {i : Instr} {s t u : State} {valid err : Bool} (ht : exec i s = .next t)
    (hu : exec i { s with frameValid := valid, rangeErr := err } = .next u) : u.frame = t.frame := by
  by_cases hi : i = .hold
  · subst hi; cases ht; cases hu; rfl
  · rw [exec_ignores_flags hi, ht] at hu; cases hu; rfl

theorem exec_reset_flags {s t : State} (h : exec .reset s = .next t) : t.frameValid = false ∧ t.rangeErr = false := by
  cases h; exact ⟨rfl, rfl⟩

theorem exec_encode_flags {v : Int} {s t : State} (h : exec (.encode v) s = .next t) :
    t.frameValid = true ∧ (t.rangeErr = true ↔ 100 ≤ v.natAbs) := by
  obtain ⟨hvalid, herr⟩ := encodeWith_flags (rom := Config.glyphRom) h
  exact ⟨hvalid, herr ▸ oor_eq_true_iff v⟩

theorem exec_hold_flags {s t : State} (h : exec .hold s = .next t) :
    t.frameValid = s.frameValid ∧ t.rangeErr = s.rangeErr := by
  cases h; exact ⟨rfl, rfl⟩

end Flags

/-- Settles O42: RESET and ENCODE establish the blank rows, every step keeps them, and a run keeps what its steps
keep. -/
theorem blankRowsInvariant : Obligations.BlankRowsInvariant := by
  have establish (i : Instr) (s t : State) (hi : i ≠ .hold) (h : exec i s = .next t) : BlankRows t :=
    blockExec_establishes_blankRows hi ((exec_eq_blockExec i s).symm.trans h)
  have keep (s t : State) (hs : BlankRows s) (h : step s = .next t) : BlankRows t :=
    blockStep_keeps_blankRows hs ((step_eq_blockStep s).symm.trans h)
  refine ⟨establish, keep, fun k s t u hreset hrun => ?_⟩
  exact core_run_keeps keep k (establish .reset s t (by decide) hreset) hrun

/-- Settles O38, by the flag lemmas of the three operations. -/
theorem flagsAfterEveryOperation : Obligations.FlagsAfterEveryOperation := by
  refine ⟨fun i s valid err => ⟨fun hi => exec_ignores_flags hi s valid err,
    fun t u ht hu => exec_frame_ignores_flags ht hu⟩, fun i s t h => ⟨?_, ?_, ?_⟩⟩
  · rintro rfl; exact exec_reset_flags h
  · rintro v rfl; exact exec_encode_flags h
  · rintro rfl; exact exec_hold_flags h

end Sys2Proof.Machine
end

section
/-! SUPPORT. The memory family: where the frame bus carries each row and each column of a frame (R37), and the
statement of the family. -/

namespace Sys2Proof.Machine

/-- Row `r` is the byte on bits `8r+7:8r` of the bus (R37): the `r` bytes below it are dropped one by one, and the
bytes above it are out of the slice. -/
theorem frameBus_extractLsb' (f : Frame) (r : Fin 8) : (frameBus f).extractLsb' (8 * r.val) 8 = frameRow f r := by
  fin_cases r <;>
    simp (disch := decide) only [frameBus, BitVec.extractLsb'_append_eq_of_le,
      BitVec.extractLsb'_append_eq_of_add_le] <;>
    exact BitVec.extractLsb'_eq_self

/-- Column `c` of row `r` is bit `c` of that row's byte, so bit `8r+c` of the bus (R36, R37). -/
theorem frameBus_getLsbD (f : Frame) (r c : Fin 8) :
    (frameBus f).getLsbD (8 * r.val + c.val) = (frameRow f r).getLsbD c.val := by
  rw [← frameBus_extractLsb', BitVec.getLsbD_extractLsb', decide_eq_true c.isLt, Bool.true_and]

/-- Settles O47: the lowest and the highest byte of the bus are the slices of rows 0 and 7. -/
theorem frameBusLayout : Obligations.FrameBusLayout := fun s r c =>
  ⟨frameBus_extractLsb' s.frame r, frameBus_getLsbD s.frame r c,
    frameBus_extractLsb' s.frame 0, frameBus_extractLsb' s.frame 7⟩

end Sys2Proof.Machine
end

section
/-! SUPPORT. The encoding family: the command word and its operand (R51, R52), sign, magnitude and digits (R53, R54),
the four layouts with their row shapes (R55, R56), the packing of a glyph (R57), and the statements of the family. -/

namespace Sys2Proof

section CommandWord
variable {W : Nat}

/-- The value input stands on the low bits of the command word (R51). -/
theorem commandWord_getLsbD_of_lt (rst enc : Bool) (value : BitVec W) {i : Nat} (hi : i < W) :
    (commandWord rst enc value).getLsbD i = value.getLsbD i := by
  have h := congrArg (·.getLsbD i) (cwValue_commandWord rst enc value)
  simpa [cwValue, hi] using h

/-- With `rst` and `enc` as 0 and 1, an ENCODE word is `2^W` plus the pattern of its operand (R51). -/
theorem commandWord_encode_toNat (value : BitVec W) :
    (commandWord false true value).toNat = 2 ^ W + value.toNat := by
  have hor : 2 ^ W ||| value.toNat = 2 ^ W + value.toNat := by
    simpa using (Nat.two_pow_add_eq_or_of_lt value.isLt 1).symm
  simp [commandWord, BitVec.toNat_append, Nat.one_shiftLeft, hor]

end CommandWord

/-- Settles O2: the three inputs are read back off their concatenation, and every word is the concatenation of its
fields. -/
theorem topBitsSelectOperation : Obligations.TopBitsSelectOperation := by
  refine ⟨fun W rst enc value => ⟨cwRst_commandWord rst enc value, cwEnc_commandWord rst enc value,
      fun i hi => commandWord_getLsbD_of_lt rst enc value hi, ?_⟩,
    fun W cw => ⟨_, _, _, (commandWord_of_fields cw).symm⟩, rfl, rfl, fun n _ => ?_⟩
  · rw [decodeCommand_commandWord]
    cases rst <;> cases enc <;> rfl
  · have hmod : 0 ≤ n % 65536 := Int.emod_nonneg n (by decide)
    simp [encodeCommand, commandWord_encode_toNat, BitVec.toNat_ofInt, hmod]

section Operand
variable {W : Nat}

/-- Bounds of the operand (R52). -/
theorem sint_bounds (value : BitVec W) : -(2 : Int) ^ (W - 1) ≤ sint value ∧ sint value ≤ 2 ^ (W - 1) - 1 := by
  rw [sint_eq_toInt]
  exact ⟨BitVec.le_toInt value, Int.le_sub_one_of_lt BitVec.toInt_lt⟩

/-- The operand as `v[W-2:0] - 2^(W-1) v[W-1]` (R9, R52). -/
theorem sint_eq_low_sub_top (value : BitVec W) :
    sint value =
      ((value.extractLsb' 0 (W - 1)).toNat : Int) - 2 ^ (W - 1) * (if value.getLsbD (W - 1) then 1 else 0) := by
  rw [sint, BitVec.msb_eq_getLsbD_last, BitVec.extractLsb'_toNat, Nat.shiftRight_zero, mul_ite, mul_one, mul_zero]

/-- A pattern is determined by the integer it denotes. -/
theorem sint_injective : Function.Injective (sint (W := W)) := fun a b h => by
  rw [sint_eq_toInt, sint_eq_toInt] at h
  exact BitVec.eq_of_toInt_eq h

/-- The two's-complement pattern of an integer of the range denotes that integer (R52). -/
theorem sint_ofInt (hW : 0 < W) {v : Int} (hlo : -(2 : Int) ^ (W - 1) ≤ v) (hhi : v ≤ 2 ^ (W - 1) - 1) :
    sint (BitVec.ofInt W v) = v := by
  rw [sint_eq_toInt]
  exact BitVec.toInt_ofInt_eq_self hW hlo (Int.lt_of_le_sub_one hhi)

end Operand

/-- Settles O8: the pattern of an integer of the range is `BitVec.ofInt`, and no other pattern denotes it. -/
theorem operandIsTwosComplement : Obligations.OperandIsTwosComplement := by
  refine ⟨fun W value _ => ⟨(sint_bounds value).1, (sint_bounds value).2, sint_eq_low_sub_top value,
    decodeCommand_commandWord false true value⟩, fun W v hW hlo hhi => ?_⟩
  have hv : sint (BitVec.ofInt W v) = v := sint_ofInt (by omega) hlo hhi
  exact ⟨BitVec.ofInt W v, hv, fun other h => sint_injective (h.trans hv.symm)⟩

end Sys2Proof

namespace Sys2Proof.Machine

section Magnitude
variable {W : Nat}

/-- The top bit of the pattern is the sign of the operand (R53). -/
theorem negativeBit_eq_negative_sint (value : BitVec W) : negativeBit value = negative (sint value) := by
  rw [negativeBit, negative, sint_eq_toInt, BitVec.msb_eq_toInt]

/-- The magnitude bits are exact for every pattern: of a negative one they are its two's-complement negation read as
unsigned, which holds `2^(W-1)` too (R53). -/
theorem magnitudeBits_toNat (value : BitVec W) : (magnitudeBits value).toNat = magnitude (sint value) := by
  rw [magnitude, sint_eq_toInt, magnitudeBits, negativeBit]
  cases hsign : value.msb with
  | false => rw [BitVec.toInt_eq_toNat_of_msb hsign, Int.natAbs_natCast, if_neg Bool.false_ne_true]
  | true =>
    rw [BitVec.toInt_eq_neg_toNat_neg_of_msb_true hsign, Int.natAbs_neg, Int.natAbs_natCast, BitVec.neg_eq_not_add,
      if_pos rfl]
    rfl

/-- The most negative operand has the magnitude `2^(W-1)` (R53). -/
theorem magnitude_sint_intMin (hW : 0 < W) : magnitude (sint (BitVec.intMin W)) = 2 ^ (W - 1) := by
  rw [magnitude, sint_eq_toInt, BitVec.toInt_intMin_of_pos hW, Int.natAbs_neg, Int.natAbs_pow]
  rfl

end Magnitude

/-- Settles O9: the sign is the top bit, and the magnitude bits negate a negative pattern exactly. -/
theorem magnitudeIsExact : Obligations.MagnitudeIsExact :=
  ⟨fun _ value _ => ⟨negativeBit_eq_negative_sint value, BitVec.msb_eq_getLsbD_last value, magnitudeBits_toNat value⟩,
    fun v => ⟨negative_eq_true_iff v, Int.natAbs_of_nonneg, fun h => Int.ofNat_natAbs_of_nonpos h.le⟩,
    fun _ hW => magnitude_sint_intMin (by omega), rfl, rfl⟩

theorem inRange_iff_tens (v : Int) : InRange v ↔ tens v ≤ 9 := by
  simp only [InRange, Config.maxMag, tens]; omega

theorem oor_iff_tens (v : Int) : oor v = true ↔ 10 ≤ tens v := by
  rw [oor_eq_true_iff, tens]; omega

theorem oor_iff_not_inRange (v : Int) : oor v = true ↔ ¬ InRange v := by
  rw [oor_eq_true_iff, InRange, Nat.not_le, Config.maxMag]; omega

/-- Out of range, and only there, there are no digits (R54). -/
theorem digits?_eq_none_iff (v : Int) : digits? v = none ↔ oor v = true := by
  rcases inRange_or_out v with h | h
  · simp [digits?_of_inRange h, oor_of_inRange h]
  · simp [digits?_of_out h, oor_eq_true_iff, h]

/-- ENC reports the range predicate of its operand (R73, R78, R88). -/
theorem enc_snd (rom : GlyphRom) (unspec : Fin 5 → RowMask) (v : Int) : (enc rom unspec v).2 = oor v := by
  rcases inRange_or_out v with h | h
  · rw [enc_of_inRange h, oor_of_inRange h]
  · rw [enc_of_out h, (oor_eq_true_iff v).2 h]

/-- Settles O10: the forms of the range predicate, what `digits?` can answer, and ENC in and out of range. -/
theorem digitsAndRange : Obligations.DigitsAndRange := fun v =>
  ⟨rfl, rfl, (Nat.div_add_mod (magnitude v) 10).symm, Nat.le_of_lt_succ (units_lt_ten v),
    Iff.rfl, inRange_iff_tens v, inRange_iff v,
    oor_eq_true_iff v, oor_iff_tens v, oor_iff_not_inRange v,
    digits?_eq_none_iff v, fun d h => ((digits?_eq_some_iff v d).1 h).2,
    fun rom unspec => enc_snd rom unspec v,
    fun rom unspec h => congrArg Prod.fst (enc_of_out ((oor_eq_true_iff v).1 h) rom unspec)⟩

/-! ## Layouts and their row shapes -/

/-- The four layouts, each with its sign and whether it has a tens digit (R55). -/
theorem Digits.layout_cases (d : Digits) :
    (d.layout = .pos1 ∧ d.negative = false ∧ d.tens = 0) ∨ (d.layout = .pos2 ∧ d.negative = false ∧ d.tens ≠ 0) ∨
    (d.layout = .neg1 ∧ d.negative = true ∧ d.tens = 0) ∨ (d.layout = .neg2 ∧ d.negative = true ∧ d.tens ≠ 0) := by
  have hpos : 0 < d.tens.val ↔ d.tens ≠ 0 := Fin.pos_iff_ne_zero
  cases hn : d.negative <;> by_cases ht : d.tens = 0 <;> simp [Digits.layout, hn, ht, hpos]

/-- The code of a layout is `{negative, tens > 0}` (R55). -/
theorem Digits.layout_code (d : Digits) :
    d.layout.code = BitVec.ofBool d.negative ++ BitVec.ofBool (decide (d.tens.val > 0)) := by
  unfold Digits.layout
  cases d.negative <;> cases decide (d.tens.val > 0) <;> rfl

/-- Settles O11: in each of the four layouts the sign and the tens digit bound the operand. -/
theorem layoutOfOperand : Obligations.LayoutOfOperand := by
  intro v d h
  obtain ⟨hrange, hneg, htens, -⟩ := (digits?_eq_some_iff v d).1 h
  have hcode := d.layout_code
  rw [hneg, htens] at hcode
  rw [inRange_iff] at hrange
  have hnegative : d.negative = true ↔ v < 0 := hneg ▸ negative_eq_true_iff v
  have hnonneg : d.negative = false ↔ 0 ≤ v := by rw [Bool.eq_false_iff, ne_eq, hnegative, Int.not_lt]
  have honeDigit : d.tens = 0 ↔ -9 ≤ v ∧ v ≤ 9 := by
    rw [Fin.ext_iff, htens, Fin.val_zero, tens, magnitude]; omega
  have hcases := d.layout_cases
  simp only [hnegative, hnonneg, honeDigit, ne_eq] at hcases
  refine ⟨?_, ?_, ?_, ?_, hcode⟩
  all_goals
    rcases hcases with ⟨hl, hv⟩ | ⟨hl, hv⟩ | ⟨hl, hv⟩ | ⟨hl, hv⟩ <;>
      simp only [hl, reduceCtorEq, true_iff, false_iff] <;> omega

/-- The row mask of a layout, left to right, from the rows of its minus, tens and units glyphs (R56). -/
def Layout.shape (l : Layout) (minus tens units : GlyphRow) : RowMask :=
  match l with
  | .pos1 => 0#5 ++ units
  | .pos2 => 0#1 ++ tens ++ 0#1 ++ units
  | .neg1 => minus ++ 0#2 ++ units
  | .neg2 => minus ++ 0#1 ++ tens ++ 0#1

/-! The glyph rows that a layout draws, placed by their shifts, as the fields of a row (R74 to R77). -/

theorem place_units (u : GlyphRow) : place u 0 = 0#5 ++ u := by
  revert u; decide

theorem place_posTens_or_units (t u : GlyphRow) : place t 4 ||| place u 0 = 0#1 ++ t ++ 0#1 ++ u := by
  revert t u; decide

theorem place_minus_or_units (m u : GlyphRow) : place m 5 ||| place u 0 = m ++ 0#2 ++ u := by
  revert m u; decide

theorem place_minus_or_negTens (m t : GlyphRow) : place m 5 ||| place t 1 = m ++ 0#1 ++ t ++ 0#1 := by
  revert m t; decide

/-- The OR of the three slots is the shape of the layout (R56, R77). -/
theorem rowMask_eq_shape (rom : GlyphRom) (d : Digits) (r : Fin 5) :
    rowMask rom d r = d.layout.shape (glyphRead rom minusIndex r) (glyphRead rom (digitIndex d.tens) r)
      (glyphRead rom (digitIndex d.units) r) := by
  rcases d.layout_cases with ⟨hl, hn, ht⟩ | ⟨hl, hn, ht⟩ | ⟨hl, hn, ht⟩ | ⟨hl, hn, ht⟩ <;>
    simp only [rowMask, slotS, slotT, slotU, hl, hn, ht, Layout.shape, if_true, if_false, Bool.false_eq_true,
      BitVec.ofNat_eq_ofNat, BitVec.zero_or, BitVec.or_zero]
  · exact place_units _
  · exact place_posTens_or_units _ _
  · exact place_minus_or_units _ _
  · exact place_minus_or_negTens _ _

/-- ENC of an operand that has digits is their frame (R78). -/
theorem enc_fst_of_digits {v : Int} {d : Digits} (h : digits? v = some d) (rom : GlyphRom)
    (unspec : Fin 5 → RowMask) : (enc rom unspec v).1 = renderedFrame rom d := by
  rw [enc, h]

/-- The glyph index of a digit, as the number it stands for (R31). -/
theorem digitIndex_eq_ofNat (d : Fin 10) : digitIndex d = Fin.ofNat 11 d.val :=
  Fin.ext (Nat.mod_eq_of_lt (by omega)).symm

/-- Settles O19: a body row is the row mask of the digits, which has the shape of their layout. -/
theorem rowShapesOfLayouts : Obligations.RowShapesOfLayouts := by
  refine ⟨fun rom unspec v d r h => ?_, frameBus_getLsbD⟩
  obtain ⟨-, -, htens, hunits⟩ := (digits?_eq_some_iff v d).1 h
  obtain ⟨h0, h6, h7⟩ := enc_blank_rows rom unspec v
  refine ⟨h0, h6, h7, ?_⟩
  rw [enc_fst_of_digits h, renderedFrame, bodyRow_assemble, rowMask_eq_shape, digitIndex_eq_ofNat, digitIndex_eq_ofNat,
    htens, hunits]
  cases d.layout <;> rfl

/-- Settles O13: the glyph rows below row `r` are dropped one by one, and those above it are out of the slice. -/
theorem glyphWordPacking : Obligations.GlyphWordPacking := by
  intro rom g r
  fin_cases r <;>
    simp (disch := decide) only [glyphWord, BitVec.extractLsb'_append_eq_of_le,
      BitVec.extractLsb'_append_eq_of_add_le] <;>
    exact BitVec.extractLsb'_eq_self

end Sys2Proof.Machine
end

section
/-! SUPPORT. The ENCODE family: glyph rows placed in a row mask (R84), ENC as the pseudocode block of R78, ENCODE in
each of the four layouts (R79 to R82), and the statements of the family. -/

namespace Sys2Proof.Machine

open Sys2Proof.Spec Sys2Proof.Safety

/-! ## Placed glyph rows -/

section Place
variable (a b : GlyphRow) {hi lo c shift off len : Nat}

/-- A placed glyph row is dark on every column beside its three. -/
theorem place_getLsbD_outside (h : c < shift ∨ shift + 3 ≤ c) : (place a shift).getLsbD c = false := by
  rw [place, BitVec.getLsbD_shiftLeft, BitVec.getLsbD_setWidth]
  rcases h with h | h
  · simp [h]
  · rw [BitVec.getLsbD_of_ge a (c - shift) (by omega), Bool.and_false, Bool.and_false]

/-- So every slice beside its three columns is zero. -/
theorem place_extractLsb'_outside (h : off + len ≤ shift ∨ shift + 3 ≤ off) :
    (place a shift).extractLsb' off len = 0 := by
  apply BitVec.eq_of_getLsbD_eq
  intro i hi
  rw [BitVec.getLsbD_extractLsb', place_getLsbD_outside a (by omega), Bool.and_false]; exact BitVec.getLsbD_zero.symm

/-- No shift up to 5 loses a bit: the slice at the shift is the glyph row. -/
theorem place_extractLsb'_self (h : shift ≤ 5) : (place a shift).extractLsb' shift 3 = a := by
  apply BitVec.eq_of_getLsbD_eq
  intro i hi
  have hcol : shift + i < 8 := by omega
  simp [place, hi, hcol]

/-- As a number, a placed glyph row is the glyph row times `2^shift`. -/
theorem place_toNat (h : shift ≤ 5) : (place a shift).toNat = 2 ^ shift * a.toNat := by
  have hpow : 2 ^ shift ≤ 2 ^ 5 := Nat.pow_le_pow_right (by decide) h
  have hlt : 2 ^ shift * a.toNat < 2 ^ 8 := (Nat.mul_lt_mul_of_le_of_lt hpow a.isLt (by decide) :)
  rw [place, BitVec.toNat_shiftLeft, BitVec.toNat_setWidth_of_le (by decide), Nat.shiftLeft_eq, Nat.mul_comm,
    Nat.mod_eq_of_lt hlt]

/-- Glyph rows placed three or more columns apart share none. -/
theorem place_and_place (h : lo + 3 ≤ hi) : place a hi &&& place b lo = 0 := by
  apply BitVec.eq_of_getLsbD_eq
  intro c _
  rw [BitVec.getLsbD_and]
  rcases Nat.lt_or_ge c hi with hc | hc
  · rw [place_getLsbD_outside a (.inl hc), Bool.false_and]; exact BitVec.getLsbD_zero.symm
  · rw [place_getLsbD_outside b (.inr (h.trans hc)), Bool.and_false]; exact BitVec.getLsbD_zero.symm

/-- The OR of row masks without a common column is their sum. -/
theorem toNat_or_of_and_eq_zero {x y : RowMask} (h : x &&& y = 0) : (x ||| y).toNat = x.toNat + y.toNat := by
  rw [← BitVec.add_eq_or_of_and_eq_zero x y h, BitVec.toNat_add_of_and_eq_zero h]

theorem place_or_place_toNat (h : lo + 3 ≤ hi) (hhi : hi ≤ 5) :
    (place a hi ||| place b lo).toNat = 2 ^ hi * a.toNat + 2 ^ lo * b.toNat := by
  rw [toNat_or_of_and_eq_zero (place_and_place a b h), place_toNat a hhi, place_toNat b (by omega)]

/-- A column beside both glyphs of a row is dark. -/
theorem place_or_place_getLsbD_outside (hhi : c < hi ∨ hi + 3 ≤ c) (hlo : c < lo ∨ lo + 3 ≤ c) :
    (place a hi ||| place b lo).getLsbD c = false := by
  rw [BitVec.getLsbD_or, place_getLsbD_outside a hhi, place_getLsbD_outside b hlo, Bool.or_false]

/-- The upper of two glyphs is read back by slicing. -/
theorem place_or_place_slice_upper (h : lo + 3 ≤ hi) (hhi : hi ≤ 5) :
    (place a hi ||| place b lo).extractLsb' hi 3 = a := by
  rw [BitVec.extractLsb'_or, place_extractLsb'_self a hhi, place_extractLsb'_outside b (.inr h)]
  exact BitVec.or_zero

/-- The lower of two glyphs is read back by slicing. -/
theorem place_or_place_slice_lower (h : lo + 3 ≤ hi) (hhi : hi ≤ 5) :
    (place a hi ||| place b lo).extractLsb' lo 3 = b := by
  rw [BitVec.extractLsb'_or, place_extractLsb'_self b (by omega), place_extractLsb'_outside a (.inl h)]
  exact BitVec.zero_or

end Place

section Slots
variable (rom : GlyphRom) (d : Digits) (r : Fin 5)

/-- In every layout the three slots are pairwise disjoint (R84). -/
theorem slots_disjoint :
    slotS rom d r &&& slotT rom d r = 0 ∧ slotS rom d r &&& slotU rom d r = 0 ∧
    slotT rom d r &&& slotU rom d r = 0 := by
  rcases d.layout_cases with ⟨-, hn, ht⟩ | ⟨-, hn, ht⟩ | ⟨-, hn, ht⟩ | ⟨-, hn, ht⟩ <;>
    simp only [slotS, slotT, slotU, hn, ht, if_true, if_false, Bool.false_eq_true, BitVec.ofNat_eq_ofNat,
      BitVec.zero_and, BitVec.and_zero, and_self, true_and, and_true]
  · exact place_and_place _ _ (by decide)
  · exact place_and_place _ _ (by decide)
  · exact place_and_place _ _ (by decide)

/-- Disjoint slots add up (R84). -/
theorem rowMask_toNat :
    (rowMask rom d r).toNat = (slotS rom d r).toNat + (slotT rom d r).toNat + (slotU rom d r).toNat := by
  obtain ⟨hST, hSU, hTU⟩ := slots_disjoint rom d r
  have hSTU : (slotS rom d r ||| slotT rom d r) &&& slotU rom d r = 0 := by
    rw [BitVec.and_or_distrib_right, hSU, hTU]
    exact BitVec.or_zero
  rw [rowMask, toNat_or_of_and_eq_zero hSTU, toNat_or_of_and_eq_zero hST]

variable {rom d r}

theorem rowMask_of_pos1 (h : d.layout = .pos1) : rowMask rom d r = place (rom (digitIndex d.units) r) 0 := by
  rw [rowMask_eq_shape, h]; exact (place_units _).symm

theorem rowMask_of_pos2 (h : d.layout = .pos2) :
    rowMask rom d r = place (rom (digitIndex d.tens) r) 4 ||| place (rom (digitIndex d.units) r) 0 := by
  rw [rowMask_eq_shape, h]; exact (place_posTens_or_units _ _).symm

theorem rowMask_of_neg1 (h : d.layout = .neg1) :
    rowMask rom d r = place (rom minusIndex r) 5 ||| place (rom (digitIndex d.units) r) 0 := by
  rw [rowMask_eq_shape, h]; exact (place_minus_or_units _ _).symm

theorem rowMask_of_neg2 (h : d.layout = .neg2) :
    rowMask rom d r = place (rom minusIndex r) 5 ||| place (rom (digitIndex d.tens) r) 1 := by
  rw [rowMask_eq_shape, h]; exact (place_minus_or_negTens _ _).symm

end Slots

/-- Settles O20: in each layout the row mask is one placed glyph row, or two that are placed three columns apart. -/
theorem placedGlyphsNeverOverlap : Obligations.PlacedGlyphsNeverOverlap := by
  intro rom d r
  obtain ⟨hST, hSU, hTU⟩ := slots_disjoint rom d r
  refine ⟨hST, hSU, hTU, rowMask_toNat rom d r, ?_, ?_, ?_, ?_, ?_, ?_, ?_, ?_⟩
  · intro c hl hc
    rw [rowMask_of_pos1 hl]
    exact place_getLsbD_outside _ (by omega)
  · intro c hl hc
    rw [rowMask_of_pos2 hl]
    exact place_or_place_getLsbD_outside _ _ (by omega) (by omega)
  · intro c hl hc
    rw [rowMask_of_neg1 hl]
    exact place_or_place_getLsbD_outside _ _ (by omega) (by omega)
  · intro c hl hc
    rw [rowMask_of_neg2 hl]
    exact place_or_place_getLsbD_outside _ _ (by omega) (by omega)
  · rintro (hl | hl)
    · rw [rowMask_of_neg1 hl]
      exact place_or_place_slice_upper _ _ (by decide) (by decide)
    · rw [rowMask_of_neg2 hl]
      exact place_or_place_slice_upper _ _ (by decide) (by decide)
  · intro hl
    rw [rowMask_of_pos2 hl]
    exact place_or_place_slice_upper _ _ (by decide) (by decide)
  · intro hl
    rw [rowMask_of_neg2 hl]
    exact place_or_place_slice_lower _ _ (by decide) (by decide)
  · intro hnot
    rcases d.layout_cases with ⟨hl, -⟩ | ⟨hl, -⟩ | ⟨hl, -⟩ | ⟨hl, -⟩
    · rw [rowMask_of_pos1 hl]
      exact place_extractLsb'_self _ (by decide)
    · rw [rowMask_of_pos2 hl]
      exact place_or_place_slice_lower _ _ (by decide) (by decide)
    · rw [rowMask_of_neg1 hl]
      exact place_or_place_slice_lower _ _ (by decide) (by decide)
    · exact absurd hl hnot

/-! ## The pseudocode block of R78 -/

section AlgorithmRow
variable (rom : GlyphRom) (r : Fin 5)

theorem glyph_eq_place (g : Nat) : glyph rom g r = place (rom (Fin.ofNat 11 g) r) 0 :=
  (BitVec.shiftLeft_zero _).symm

theorem glyph_shiftLeft (g shift : Nat) : glyph rom g r <<< shift = place (rom (Fin.ofNat 11 g) r) shift := rfl

theorem glyph_toNat (g : Nat) : (glyph rom g r).toNat = (rom (Fin.ofNat 11 g) r).toNat :=
  BitVec.toNat_setWidth_of_le (by decide)

variable {v : Int}

theorem algorithmRow_pos1 (hlo : 0 ≤ v) (hhi : v ≤ 9) : algorithmRow rom v r = glyph rom v.toNat r := by
  have hneg : ¬ v < 0 := by omega
  have htens : ¬ 0 < v.toNat / 10 := by omega
  have hunits : v.toNat % 10 = v.toNat := by omega
  simp only [algorithmRow, hneg, htens, hunits, if_false]
  exact BitVec.zero_or

theorem algorithmRow_pos2 (hlo : 10 ≤ v) :
    algorithmRow rom v r = (glyph rom (v.toNat / 10) r <<< 4) ||| glyph rom (v.toNat % 10) r := by
  have hneg : ¬ v < 0 := by omega
  have htens : 0 < v.toNat / 10 := by omega
  simp only [algorithmRow, hneg, htens, if_false, if_true]
  rw [BitVec.ofNat_eq_ofNat, BitVec.zero_or]

theorem algorithmRow_neg1 (hlo : -9 ≤ v) (hhi : v ≤ -1) :
    algorithmRow rom v r = (glyph rom 10 r <<< 5) ||| glyph rom (-v).toNat r := by
  have hneg : v < 0 := by omega
  have htens : ¬ 0 < (-v).toNat / 10 := by omega
  have hunits : (-v).toNat % 10 = (-v).toNat := by omega
  simp only [algorithmRow, hneg, htens, hunits, if_false, if_true]
  rw [BitVec.ofNat_eq_ofNat, BitVec.zero_or]

theorem algorithmRow_neg2 (hhi : v ≤ -10) :
    algorithmRow rom v r = (glyph rom 10 r <<< 5) ||| (glyph rom ((-v).toNat / 10) r <<< 1) := by
  have hneg : v < 0 := by omega
  have htens : 0 < (-v).toNat / 10 := by omega
  simp only [algorithmRow, hneg, htens, if_true]
  rw [BitVec.ofNat_eq_ofNat, BitVec.zero_or]

/-- In each of the four layouts the block of R78 and the three slots place the same glyph rows. -/
theorem algorithmRow_eq_rowMask {d : Digits} (h : digits? v = some d) : algorithmRow rom v r = rowMask rom d r := by
  obtain ⟨-, -, htens, hunits⟩ := (digits?_eq_some_iff v d).1 h
  obtain ⟨hpos1, hpos2, hneg1, hneg2, -⟩ := layoutOfOperand v d h
  rw [tens, magnitude] at htens
  rw [units, magnitude] at hunits
  rcases d.layout_cases with ⟨hl, -⟩ | ⟨hl, -⟩ | ⟨hl, -⟩ | ⟨hl, -⟩
  · obtain ⟨hlo, hhi⟩ := hpos1.1 hl
    have hu : d.units.val = v.toNat := by omega
    rw [algorithmRow_pos1 rom r hlo hhi, rowMask_of_pos1 hl, digitIndex_eq_ofNat, hu, glyph_eq_place]
  · obtain ⟨hlo, -⟩ := hpos2.1 hl
    have ht : d.tens.val = v.toNat / 10 := by omega
    have hu : d.units.val = v.toNat % 10 := by omega
    rw [algorithmRow_pos2 rom r hlo, rowMask_of_pos2 hl, digitIndex_eq_ofNat, digitIndex_eq_ofNat, ht, hu,
      glyph_shiftLeft, glyph_eq_place]
  · obtain ⟨hlo, hhi⟩ := hneg1.1 hl
    have hu : d.units.val = (-v).toNat := by omega
    rw [algorithmRow_neg1 rom r hlo hhi, rowMask_of_neg1 hl, digitIndex_eq_ofNat, hu, glyph_shiftLeft, glyph_eq_place]
    rfl
  · obtain ⟨-, hhi⟩ := hneg2.1 hl
    have ht : d.tens.val = (-v).toNat / 10 := by omega
    rw [algorithmRow_neg2 rom r hhi, rowMask_of_neg2 hl, digitIndex_eq_ofNat, ht]
    rfl

end AlgorithmRow

/-- ENC of an in-range operand assembles the rows of the block of R78, without a range error. -/
theorem enc_eq_algorithm {v : Int} (h : InRange v) (rom : GlyphRom) (unspec : Fin 5 → RowMask) :
    enc rom unspec v = (assemble (algorithmRow rom v), false) := by
  have hrows : algorithmRow rom v = rowMask rom _ :=
    funext fun r => algorithmRow_eq_rowMask rom r (digits?_of_inRange h)
  rw [enc_of_inRange h, renderedFrame, hrows]

/-- Settles O14: the rows that ENC assembles are those of the block. -/
theorem encMatchesAlgorithmBlock : Obligations.EncMatchesAlgorithmBlock := fun rom unspec v hlo hhi =>
  enc_eq_algorithm ((inRange_iff v).2 ⟨hlo, hhi⟩) rom unspec

theorem bodyRow_enc {v : Int} (h : InRange v) (rom : GlyphRom) (unspec : Fin 5 → RowMask) (r : Fin 5) :
    bodyRow (enc rom unspec v).1 r = algorithmRow rom v r := by
  rw [enc_eq_algorithm h, bodyRow_assemble]

/-- Settles O21: ENC of `d` is the units glyph on columns 2..0, and ENC of `-d` has the minus glyph on columns 7..5
beside it. -/
theorem signSymmetryOfSingleDigits : Obligations.SignSymmetryOfSingleDigits := by
  intro rom unspec d hlo hhi
  have hpos (r : Fin 5) : bodyRow (enc rom unspec d).1 r = glyph rom d.toNat r := by
    rw [bodyRow_enc ((inRange_iff d).2 (by omega)), algorithmRow_pos1 rom r (by omega) hhi]
  have hneg (r : Fin 5) : bodyRow (enc rom unspec (-d)).1 r = (glyph rom 10 r <<< 5) ||| glyph rom d.toNat r := by
    rw [bodyRow_enc ((inRange_iff (-d)).2 (by omega)), algorithmRow_neg1 rom r (by omega) (by omega), Int.neg_neg]
  have htop (r : Fin 5) : (glyph rom d.toNat r).extractLsb' 5 3 = 0 := by
    rw [glyph_eq_place]; exact place_extractLsb'_outside _ (.inr (by decide))
  refine ⟨fun r => ⟨?_, ?_, ?_⟩, ?_⟩
  · rw [hneg, hpos, BitVec.or_comm]
  · rw [hpos, htop]
  · rw [hneg, hpos, BitVec.extractLsb'_or, glyph_shiftLeft, place_extractLsb'_outside _ (.inl (by decide))]
    exact BitVec.zero_or
  · rintro ⟨r, hminus⟩ heq
    have hrow : (glyph rom 10 r <<< 5) ||| glyph rom d.toNat r = glyph rom d.toNat r := by rw [← hneg, heq, hpos]
    have hslice : rom 10 r = (glyph rom d.toNat r).extractLsb' 5 3 := by
      rw [← hrow, glyph_shiftLeft, glyph_eq_place]
      exact (place_or_place_slice_upper _ _ (by decide) (by decide)).symm
    exact hminus (hslice.trans (htop r))

/-! ## ENCODE of an in-range operand -/

theorem exec_encode (v : Int) (s : State) : exec (.encode v) s = encodeWith Config.glyphRom v s := rfl

theorem faultOf_encode_of_inRange {v : Int} (h : InRange v) : faultOf (.encode v) = none := by
  rw [faultOf, oor_of_inRange h]; rfl

/-- ENCODE of an in-range operand writes ENC's frame and the flags, and nothing else (R70, R92). -/
theorem encodeWith_writes_enc {W : Nat} {v : Int} (h : InRange v) (rom : GlyphRom) (unspec : Fin 5 → RowMask)
    (s : State W) : encodeWith rom v s = .next (s.writeAll (enc rom unspec v).1 true false) := by
  rw [encodeWith_of_inRange h, enc_of_inRange h, State.loadFrame, rangeErrAfterEncode, oor_of_inRange h]; rfl

/-- Settles O23: what ENCODE writes in range, and the blank rows of ENC. -/
theorem inRangeEncodeCompletes : Obligations.InRangeEncodeCompletes := by
  intro v s unspec hlo hhi
  have h : InRange v := (inRange_iff v).2 ⟨hlo, hhi⟩
  exact ⟨encodeWith_writes_enc h Config.glyphRom unspec s, faultOf_encode_of_inRange h,
    enc_blank_rows Config.glyphRom unspec v⟩

/-- Settles O27: ENCODE in range and RESET write 66 bits that depend on no state. -/
theorem encodeReadsNoState : Obligations.EncodeReadsNoState := fun _ s s' h =>
  ⟨_, _, exec_encode_of_inRange h s, exec_encode_of_inRange h s', rfl, _, _, exec_reset s, exec_reset s', rfl⟩

/-- The row that a rendering shows on frame row `r + 1`. -/
theorem bodyRow_of_shows {t : State} {rows : Fin 5 → RowMask} (h : Shows t rows) (r : Fin 5) :
    bodyRow t.frame r = rows r := by
  obtain ⟨-, -, -, hrows, -⟩ := h
  exact hrows r

/-- ENCODE of an in-range operand shows the rows of the block of R78, whatever form they are given in. -/
theorem encodeWith_shows {rom : GlyphRom} {v : Int} {rows : Fin 5 → RowMask} (h : InRange v)
    (hrows : ∀ r, algorithmRow rom v r = rows r) (s : State) :
    ∃ t, encodeWith rom v s = .next t ∧ SameModelFields s t ∧ Shows t rows := by
  refine ⟨_, encodeWith_writes_enc h rom s.unspecRows s, ⟨rfl, rfl, rfl⟩, ?_⟩
  rw [enc_eq_algorithm h]
  exact ⟨rfl, rfl, rfl, fun r => (bodyRow_assemble _ r).trans (hrows r), rfl, rfl⟩

/-- In range, operands with the same rows have the same outcome. -/
theorem encodeWith_eq_of_rows {W : Nat} {rom : GlyphRom} {v w : Int} (hv : InRange v) (hw : InRange w)
    (hrows : ∀ r, algorithmRow rom v r = algorithmRow rom w r) (s : State W) :
    encodeWith rom v s = encodeWith rom w s := by
  rw [encodeWith_writes_enc hv rom s.unspecRows, encodeWith_writes_enc hw rom s.unspecRows, enc_eq_algorithm hv,
    enc_eq_algorithm hw, funext hrows]

/-- Settles O15: one glyph row, at shift 0. -/
theorem encodePos1ShowsUnits : Obligations.EncodePos1ShowsUnits := by
  intro rom v s hlo hhi
  obtain ⟨t, ht, hfields, hshows⟩ := encodeWith_shows ((inRange_iff v).2 (by omega))
    (fun r => algorithmRow_pos1 rom r hlo hhi) s
  refine ⟨t, ht, hfields, hshows, fun r => ?_⟩
  rw [bodyRow_of_shows hshows, glyph_eq_place]
  exact place_extractLsb'_outside _ (.inr (by decide))

/-- Where ENCODE shows two glyphs, three columns apart, each row is their sum and dark on the columns beside both. -/
theorem encodeWith_shows_pair {rom : GlyphRom} {v : Int} {hi lo g g' : Nat} (h : InRange v) (hlo : lo + 3 ≤ hi)
    (hhi : hi ≤ 5) (hrows : ∀ r, algorithmRow rom v r = (glyph rom g r <<< hi) ||| (glyph rom g' r <<< lo))
    (s : State) :
    ∃ t, encodeWith rom v s = .next t ∧ SameModelFields s t ∧
      Shows t (fun r => (glyph rom g r <<< hi) ||| (glyph rom g' r <<< lo)) ∧
      ∀ r, (bodyRow t.frame r).toNat = 2 ^ hi * (glyph rom g r).toNat + 2 ^ lo * (glyph rom g' r).toNat ∧
        ∀ c, (c < hi ∨ hi + 3 ≤ c) → (c < lo ∨ lo + 3 ≤ c) → (bodyRow t.frame r).getLsbD c = false := by
  obtain ⟨t, ht, hfields, hshows⟩ := encodeWith_shows h hrows s
  refine ⟨t, ht, hfields, hshows, fun r => ?_⟩
  rw [bodyRow_of_shows hshows, glyph_shiftLeft, glyph_shiftLeft, glyph_toNat, glyph_toNat]
  exact ⟨place_or_place_toNat _ _ hlo hhi, fun c => place_or_place_getLsbD_outside _ _⟩

/-- Settles O16: glyphs at the shifts 4 and 0. -/
theorem encodePos2ShowsTensAndUnits : Obligations.EncodePos2ShowsTensAndUnits := by
  intro rom v s hlo hhi
  obtain ⟨t, ht, hfields, hshows, hbody⟩ := encodeWith_shows_pair (hi := 4) (lo := 0) ((inRange_iff v).2 (by omega))
    (by decide) (by decide) (fun r => by rw [algorithmRow_pos2 rom r hlo, BitVec.shiftLeft_zero]) s
  simp only [BitVec.shiftLeft_zero, Nat.pow_zero, Nat.one_mul] at hshows hbody
  refine ⟨t, ht, hfields, hshows, fun r => ?_⟩
  obtain ⟨hsum, hdark⟩ := hbody r
  exact ⟨hsum, hdark 7 (by decide) (by decide), hdark 3 (by decide) (by decide)⟩

/-- Settles O17: glyphs at the shifts 5 and 0. -/
theorem encodeNeg1ShowsMinusAndUnits : Obligations.EncodeNeg1ShowsMinusAndUnits := by
  intro rom v s hlo hhi
  obtain ⟨t, ht, hfields, hshows, hbody⟩ := encodeWith_shows_pair (hi := 5) (lo := 0) ((inRange_iff v).2 (by omega))
    (by decide) (by decide) (fun r => by rw [algorithmRow_neg1 rom r hlo hhi, BitVec.shiftLeft_zero]) s
  simp only [BitVec.shiftLeft_zero, Nat.pow_zero, Nat.one_mul] at hshows hbody
  refine ⟨t, ht, hfields, hshows, fun r => ?_⟩
  obtain ⟨hsum, hdark⟩ := hbody r
  exact ⟨hsum, hdark 4 (by decide) (by decide), hdark 3 (by decide) (by decide)⟩

/-- Settles O18: glyphs at the shifts 5 and 1, and the tens digit is all that they take of the operand. -/
theorem encodeNeg2ShowsMinusAndTens : Obligations.EncodeNeg2ShowsMinusAndTens := by
  intro rom v s hlo hhi
  have hv : InRange v := (inRange_iff v).2 (by omega)
  constructor
  · obtain ⟨t, ht, hfields, hshows, hbody⟩ :=
      encodeWith_shows_pair hv (by decide) (by decide) (fun r => algorithmRow_neg2 rom r hhi) s
    refine ⟨t, ht, hfields, hshows, fun r => ?_⟩
    obtain ⟨hsum, hdark⟩ := hbody r
    exact ⟨hsum, hdark 4 (by decide) (by decide), hdark 0 (by decide) (by decide)⟩
  · intro w hwlo hwhi htens
    refine encodeWith_eq_of_rows ((inRange_iff w).2 (by omega)) hv (fun r => ?_) s
    rw [algorithmRow_neg2 rom r hwhi, algorithmRow_neg2 rom r hhi, htens]

/-- Settles O26: both operands are of layout NEG2 and have the tens digit `t`, so O18 gives them the same state. -/
theorem droppedUnitsDigitIsNoFault : Obligations.DroppedUnitsDigitIsNoFault := by
  intro t u u' s ht ht' hu hu'
  obtain ⟨⟨s', hs', -, hshows, -⟩, hsame⟩ := encodeNeg2ShowsMinusAndTens Config.glyphRom
    (-((10 * t + u : Nat) : Int)) s (by omega) (by omega)
  have hother := hsame (-((10 * t + u' : Nat) : Int)) (by omega) (by omega) (by omega)
  have htens : (- -((10 * t + u : Nat) : Int)).toNat / 10 = t := by omega
  obtain ⟨-, -, -, hrows, hvalid, herr⟩ := hshows
  refine ⟨s', hs', hother.trans hs', hvalid, herr, faultOf_encode_of_inRange ((inRange_iff _).2 (by omega)),
    fun r => ?_⟩
  rw [hrows, htens]

end Sys2Proof.Machine
end

section
/-! SUPPORT. The control family: the outputs of the blank frame (R23, R37), runs over HOLD words (R100), and the
statements of the family. -/

namespace Sys2Proof.Machine

/-- A run over HOLD words only uses up those words (R100). -/
theorem core_run_of_holds {words rest : List (CommandWord Config.valueWidth)} {s : State}
    (hwords : ∀ cw ∈ words, decodeCommand cw = .hold) (hs : s.inputs = words ++ rest) :
    core.run words.length s = .next { s with inputs := rest } := by
  induction words generalizing s with
  | nil => cases hs; rfl
  | cons cw words ih =>
    obtain ⟨hcw, hwords⟩ := List.forall_mem_cons.1 hwords
    have hstep : step s = .next { s with inputs := words ++ rest } := by
      rw [step_of_inputs_cons (hs.trans List.cons_append), hcw, exec_hold]
    rw [List.length_cons, core_run_succ hstep, ih hwords rfl]

/-- Settles O31: a command word with `rst` and `enc` 0 decodes to HOLD, and a run over such words is an induction over
them. -/
theorem holdChangesNothing : Obligations.HoldChangesNothing :=
  ⟨exec_hold, rfl, fun _ value => decodeCommand_commandWord false false value,
    fun _ _ _ hwords hs => core_run_of_holds hwords hs⟩

/-- The blank frame drives the bus with zeros (R23, R37). -/
@[simp] theorem frameBus_blank : frameBus Frame.blank = 0 := by decide

/-- Settles O29: RESET writes the blank frame and clears both flags, and `rst` alone selects it. -/
theorem resetClearsEverything : Obligations.ResetClearsEverything := by
  refine ⟨exec_reset, rfl, fun s t h => ?_, fun _ enc value => decodeCommand_commandWord true enc value⟩
  obtain ⟨hvalid, herr⟩ := exec_reset_flags h
  have hframe : t.frame = Frame.blank := by cases h; rfl
  exact ⟨(congrArg frameBus hframe).trans frameBus_blank, hvalid, herr⟩

end Sys2Proof.Machine
end

section
/-! SUPPORT. The exceptions family: which operation raises RANGE (R110, R111), what it writes (R115), when `RANGE_ERR`
is set and cleared (R117), the priority of the command inputs (R114), and the statements of the family. -/

namespace Sys2Proof.Machine

open Sys2Proof.Safety

theorem faultOf_encode_eq_range_iff (v : Int) : faultOf (.encode v) = some .range ↔ 100 ≤ magnitude v := by
  rw [← oor_eq_true_iff, faultOf]
  cases oor v <;> simp

/-- ENCODE is the only operation that raises RANGE, and does so by the magnitude of its operand (R111). -/
theorem faultOf_eq_range_iff (i : Instr) : faultOf i = some .range ↔ ∃ v, i = .encode v ∧ 100 ≤ magnitude v := by
  constructor
  · intro h
    cases i with
    | reset => cases h
    | encode v => exact ⟨v, rfl, (faultOf_encode_eq_range_iff v).1 h⟩
    | hold => cases h
  · rintro ⟨v, rfl, hv⟩
    exact (faultOf_encode_eq_range_iff v).2 hv

section RangeErr
variable {W : Nat}

/-- `RANGE_ERR` after an operation: RESET clears it, ENCODE writes it, HOLD keeps it (R15, R117). -/
theorem blockExec_rangeErr_iff {rom : GlyphRom} {i : Instr} {s t : State W} (h : blockExec rom i s = .next t) :
    t.rangeErr = true ↔ faultOf i = some .range ∨ (i = .hold ∧ s.rangeErr = true) := by
  cases i with
  | reset => cases h; simp [faultOf, rangeErrAfterReset]
  | encode v =>
    obtain ⟨-, herr⟩ := encodeWith_flags (rom := rom) h
    rw [herr, oor_eq_true_iff, faultOf_encode_eq_range_iff]
    simp
  | hold => cases h; simp [faultOf]

theorem blockStep_rangeErr_iff {rom : GlyphRom} {s t : State W} (h : blockStep rom s = .next t) :
    t.rangeErr = true ↔ stepFault s = some .range ∨ (s.operation = .hold ∧ s.rangeErr = true) := by
  rw [blockExec_rangeErr_iff h, State.passEdge_rangeErr, stepFault]

end RangeErr

/-- Settles O40: a step is the operation it samples, on a state with the same `RANGE_ERR`. -/
theorem rangeErrIsSetAndCleared : Obligations.RangeErrIsSetAndCleared := fun s _ h =>
  blockStep_rangeErr_iff ((step_eq_blockStep s).symm.trans h)

/-- Settles O39: the operation that raises RANGE leaves `RANGE_ERR` at 1. -/
theorem rangeIsTheOnlyFault : Obligations.RangeIsTheOnlyFault :=
  ⟨faultOf_eq_range_iff, fun | .range => rfl, rfl, rfl, fun i s _ h hfault =>
    (blockExec_rangeErr_iff ((exec_eq_blockExec i s).symm.trans h)).2 (.inl hfault)⟩

/-- Settles O24: out of range ENCODE takes the RANGE fault, whose rows 1..5 are the five values drawn. -/
theorem rangeFaultEntry : Obligations.RangeFaultEntry := by
  intro v s hv
  have hout : 100 ≤ magnitude v := by rw [magnitude]; omega
  exact ⟨(faultOf_encode_eq_range_iff v).2 hout, _, _, _, _, _, _, exec_encode_of_out hout s⟩

/-- The operation of an edge on given inputs is that of the first command word (R51). -/
theorem operation_of_inputs_cons {W : Nat} {s : State W} {cw : CommandWord W} {rest : List (CommandWord W)}
    (h : s.inputs = cw :: rest) : s.operation = decodeCommand cw := by
  rw [State.operation, State.sampledCommand_cons h]

/-- Settles O35: the operation of each of the three cases, and the fault that it raises. -/
theorem priorityOfCommandInputs : Obligations.PriorityOfCommandInputs := by
  intro s enc value rest
  refine ⟨fun h => ?_, fun h => ?_, fun h => ?_⟩
  all_goals
    have hop := (operation_of_inputs_cons h).trans (decodeCommand_commandWord _ _ _)
    have hstep := step_of_inputs_cons h
    rw [decodeCommand_commandWord] at hstep
    rw [stepFault, hop]
  · exact ⟨rfl, rfl, hstep⟩
  · exact ⟨hstep, faultOf_encode_eq_range_iff (sint value)⟩
  · exact ⟨rfl, hstep⟩

end Sys2Proof.Machine
end

section
/-! SUPPORT. Decoder and encoder agree (R51, R52, R60): command words, the rows of the opcode table, operands of two
widths, and the statements about them. -/

namespace Sys2Proof

section Operand
variable {W : Nat}

theorem fitsWidth_iff (W : Nat) (v : Int) : fitsWidth W v = true ↔ -(2 : Int) ^ (W - 1) ≤ v ∧ v ≤ 2 ^ (W - 1) - 1 := by
  simp [fitsWidth]

/-- What a pattern denotes fits its width (R52). -/
theorem fitsWidth_sint (value : BitVec W) : fitsWidth W (sint value) = true :=
  (fitsWidth_iff W _).2 (sint_bounds value)

/-- The pattern of the integer that a pattern denotes is that pattern. -/
theorem ofInt_sint (value : BitVec W) : BitVec.ofInt W (sint value) = value := by
  rw [sint_eq_toInt, BitVec.ofInt_toInt]

/-- Sign extension does not change what a pattern denotes (R5, R9). -/
theorem sint_signExtend {W' : Nat} (h : W ≤ W') (value : BitVec W) : sint (value.signExtend W') = sint value := by
  rw [sint_eq_toInt, sint_eq_toInt, BitVec.toInt_signExtend_of_le h]

end Operand

/-- The canonical word of a well-formed operation decodes to it: the pattern of an operand that fits the width
denotes that operand (R51, R52, R60). -/
theorem decodeCommand_encodeCommand {W : Nat} {i : Instr} (hW : 0 < W) (hi : i.wf W = true) :
    decodeCommand (encodeCommand W i) = i := by
  cases i with
  | reset => exact decodeCommand_commandWord true false 0
  | encode v =>
    obtain ⟨hlo, hhi⟩ := (fitsWidth_iff W v).1 hi
    rw [encodeCommand, decodeCommand_commandWord, sint_ofInt hW hlo hhi]
  | hold => exact decodeCommand_commandWord false false 0

/-- Settles O4, by `decodeCommand_encodeCommand`. -/
theorem decodeOfEncodeEveryWidth : Obligations.DecodeOfEncodeEveryWidth := fun _ _ hW hi =>
  decodeCommand_encodeCommand (by omega) hi

/-- Settles O5: of the three inputs the decoder keeps those that select, and for ENCODE the pattern. -/
theorem encodeOfDecodeClearsIgnoredBits : Obligations.EncodeOfDecodeClearsIgnoredBits := by
  intro W rst enc value _
  rw [decodeCommand_commandWord]
  cases rst with
  | true => exact ⟨rfl, rfl⟩
  | false =>
    cases enc with
    | true => exact ⟨fitsWidth_sint value, congrArg (commandWord false true) (ofInt_sint value)⟩
    | false => exact ⟨rfl, rfl⟩

/-- Settles O12: both words are ENCODE, of patterns that denote the same operand. -/
theorem widthDoesNotChangeOperand : Obligations.WidthDoesNotChangeOperand := by
  intro W W' value _ hle
  rw [decodeCommand_commandWord, decodeCommand_commandWord, sint_signExtend hle]

/-- Settles O3: `rst` and `enc` of a word leave one row that covers it. -/
theorem opcodeTableCoversEveryWord : Obligations.OpcodeTableCoversEveryWord := by
  refine ⟨fun W cw => ?_, rfl⟩
  rw [← commandWord_of_fields cw, decodeCommand_commandWord]
  simp only [opcodeTable, List.mem_cons, List.not_mem_nil, or_false, exists_eq_or_imp, exists_eq_left,
    forall_eq_or_imp, forall_eq, covers_resetRow, covers_encodeRow, covers_holdRow]
  cases cwRst cw <;> cases cwEnc cw <;> simp [Instr.mnemonic]

/-- Settles O1, by evaluating the decoder on each word. -/
theorem listedWordsDecode : Obligations.ListedWordsDecode := by
  unfold Obligations.ListedWordsDecode
  decide

end Sys2Proof
end

section
/-! SUPPORT. The byte container (log 7) and the table words read through it (log 14): reading back what was written,
and the statements about it. -/

namespace Sys2Proof

@[simp] theorem lowBytes_length (k n : Nat) : (lowBytes k n).length = k := by
  induction k generalizing n with
  | zero => rfl
  | succ k ih => exact congrArg (· + 1) (ih (n / 256))

/-- The `k` lowest bytes of a number that `k` bytes hold spell it. -/
theorem littleEndian_lowBytes (k : Nat) {n : Nat} (h : n < 256 ^ k) : littleEndian (lowBytes k n) = n := by
  induction k generalizing n with
  | zero => exact (Nat.lt_one_iff.1 h).symm
  | succ k ih =>
    have hdiv : n / 256 < 256 ^ k := Nat.div_lt_of_lt_mul (by rwa [← Nat.pow_succ'])
    rw [lowBytes, littleEndian, ih hdiv, BitVec.toNat_ofNat]
    exact Nat.mod_add_div n 256

/-- The container is large enough for the `W + 2` bits of a command word. -/
theorem two_pow_le_container (W : Nat) : 2 ^ (W + 2) ≤ 256 ^ containerBytes W := by
  have hbits : W + 2 ≤ 8 * containerBytes W := by rw [containerBytes]; omega
  calc 2 ^ (W + 2) ≤ 2 ^ (8 * containerBytes W) := Nat.pow_le_pow_right (by decide) hbits
    _ = 256 ^ containerBytes W := Nat.pow_mul 2 8 _

theorem decodeBytes_of_short {W : Nat} {bytes : List Byte} (h : bytes.length < containerBytes W) :
    decodeBytes W bytes = .error .truncated := if_pos h

/-- What the decoder answers on the bytes of a number that the container holds: the operation of the command word with
that number, or a refusal where there is no such word. -/
theorem decodeBytes_lowBytes {W n : Nat} (h : n < 256 ^ containerBytes W) (rest : List Byte) :
    decodeBytes W (lowBytes (containerBytes W) n ++ rest) =
      if n < 2 ^ (W + 2) then .ok (decodeCommand (W := W) (BitVec.ofNat (W + 2) n), rest)
      else .error .noSuchInput := by
  have hlen : ¬ (lowBytes (containerBytes W) n ++ rest).length < containerBytes W := by
    rw [List.length_append, lowBytes_length]; omega
  rw [decodeBytes, if_neg hlen, List.take_left' (lowBytes_length _ n), List.drop_left' (lowBytes_length _ n),
    littleEndian_lowBytes _ h]

/-- A command word decodes from its bytes, and the bytes after it are left over. -/
theorem decodeBytes_commandBytes {W : Nat} (cw : CommandWord W) (rest : List Byte) :
    decodeBytes W (commandBytes cw ++ rest) = .ok (decodeCommand cw, rest) := by
  rw [commandBytes, decodeBytes_lowBytes (cw.isLt.trans_le (two_pow_le_container W)), if_pos cw.isLt,
    BitVec.ofNat_toNat, BitVec.setWidth_eq]

/-- Settles O6: the bytes of a word spell its number, and three bytes whose highest is 4 or more spell one of 19 bits
or more. -/
theorem byteContainerRoundTrip : Obligations.ByteContainerRoundTrip := by
  refine ⟨fun W i rest hW hi => ?_, fun _ => decodeBytes_commandBytes, fun _ _ => decodeBytes_of_short,
    fun b0 b1 b2 rest hb => ?_, rfl⟩
  · rw [encodeBytes, decodeBytes_commandBytes, decodeCommand_encodeCommand (by omega) hi]
  · have hlen : ¬ (b0 :: b1 :: b2 :: rest).length < containerBytes 16 := by
      simp [containerBytes]
    have hbig : ¬ littleEndian ((b0 :: b1 :: b2 :: rest).take (containerBytes 16)) < 2 ^ (16 + 2) := by
      simp only [containerBytes, List.take_succ_cons, List.take_zero, littleEndian]; omega
    rw [decodeBytes, if_neg hlen, if_neg hbig]

/-- A table word that the decoder reads has the number of a command word, and is read as that word. -/
theorem decodeTableWordAt_eq_some {W nbits w : Nat} {i : Instr} (h : decodeTableWordAt W nbits w = some i) :
    decodeCommand (W := W) (BitVec.ofNat (W + 2) (w % 2 ^ nbits)) = i := by
  rw [decodeTableWordAt, Nat.pow_mul] at h
  split at h
  · next hfits =>
    have hread := decodeBytes_lowBytes hfits []
    rw [List.append_nil] at hread
    rw [hread] at h
    split at h
    · next hok =>
      split at hok
      · cases hok; exact Option.some.inj h
      · cases hok
    · cases h
  · cases h

end Sys2Proof

namespace Sys2Proof.Machine

/-- Settles O59: the presented word is the first of the inputs, and the step uses it up. -/
theorem presentedWordRunsNextAtEveryWidth : Obligations.PresentedWordRunsNextAtEveryWidth := by
  intro W rom s nbits w i h
  rw [blockStep_of_inputs_cons rom (State.presentTableWord_inputs s nbits w), decodeTableWordAt_eq_some h]
  rfl

/-- Settles O33: the machine of the host's names is the block at the default width. -/
theorem presentedWordRunsNext : Obligations.PresentedWordRunsNext := by
  intro s nbits w i h
  rw [step_eq_blockStep, exec_eq_blockExec, State.withFetchWord_eq_presentTableWord]
  exact presentedWordRunsNextAtEveryWidth _ _ s nbits w i h

end Sys2Proof.Machine
end

section
/-! SUPPORT. The command line (R60): the words of a written line, the integer that a decimal spelling denotes, and the
statement about lines. -/

namespace Sys2Proof

/-! ## Decimal integers -/

/-- The reader's test for a digit is the library's. -/
theorem digitValue_of_isDigit {c : Char} (h : c.isDigit = true) : digitValue c = some (c.toNat - '0'.toNat) :=
  if_pos (by simpa [Char.isDigit, UInt32.le_iff_toNat_le] using h)

/-- Reading digits is the library's value of a list of digits. -/
theorem readDigits_eq_ofDigitChars {cs : List Char} (h : ∀ c ∈ cs, c.isDigit = true) (acc : Nat) :
    readDigits acc cs = some (Nat.ofDigitChars 10 cs acc) := by
  induction cs generalizing acc with
  | nil => rfl
  | cons c cs ih =>
    obtain ⟨hc, hcs⟩ := List.forall_mem_cons.1 h
    rw [readDigits, digitValue_of_isDigit hc]
    exact ih hcs _

theorem isDigit_of_mem_toDigits {n : Nat} {c : Char} (h : c ∈ Nat.toDigits 10 n) : c.isDigit = true :=
  Nat.isDigit_of_mem_toDigits (by decide) (by decide) h

theorem readNat_toDigits (n : Nat) : readNat (Nat.toDigits 10 n) = some n := by
  have hread := readDigits_eq_ofDigitChars (fun c => isDigit_of_mem_toDigits (n := n) (c := c)) 0
  rw [Nat.ofDigitChars_toDigits (by decide) (by decide)] at hread
  obtain ⟨c, cs, hcs⟩ := List.exists_cons_of_ne_nil (Nat.toDigits_ne_nil (n := n) (b := 10))
  rw [hcs] at hread ⊢
  exact hread

/-- Without a leading `-` the integer reader is the reader of natural numbers. -/
theorem readInt_of_readNat {c : Char} {cs : List Char} {n : Nat} (hc : c ≠ '-') (h : readNat (c :: cs) = some n) :
    readInt (c :: cs) = some (n : Int) := by
  rw [readInt, if_neg hc, h]

theorem readInt_minus {cs : List Char} {n : Nat} (h : readNat cs = some n) :
    readInt ('-' :: cs) = some (-(n : Int)) := by
  rw [readInt, if_pos rfl, h]

/-- The decimal spelling of an integer reads as that integer (R60). -/
theorem readInt_writeInt (v : Int) : readInt (writeInt v) = some v := by
  have hnat := readNat_toDigits v.natAbs
  by_cases hv : v < 0
  · rw [writeInt, if_pos hv, readInt_minus hnat, Int.ofNat_natAbs_of_nonpos hv.le, Int.neg_neg]
  · rw [writeInt, if_neg hv]
    obtain ⟨c, cs, hcs⟩ := List.exists_cons_of_ne_nil (Nat.toDigits_ne_nil (n := v.natAbs) (b := 10))
    have hdigit : c.isDigit = true := isDigit_of_mem_toDigits (n := v.natAbs) (by rw [hcs]; exact List.mem_cons_self)
    have hminus : c ≠ '-' := by rintro rfl; exact absurd hdigit (by decide)
    rw [hcs] at hnat ⊢
    rw [readInt_of_readNat hminus hnat, Int.natAbs_of_nonneg (by omega)]

/-! ## The words of a line -/

/-- A character that sets no words apart and starts no comment. -/
def IsWordChar (c : Char) : Prop := c ≠ ' ' ∧ c ≠ '\t' ∧ c ≠ ';'

theorem isWordChar_of_isDigit {c : Char} (h : c.isDigit = true) : IsWordChar c := by
  refine ⟨?_, ?_, ?_⟩ <;> (rintro rfl; exact absurd h (by decide))

theorem isWordChar_of_mem_writeInt {v : Int} {c : Char} (h : c ∈ writeInt v) : IsWordChar c := by
  unfold writeInt at h
  split at h
  · rcases List.mem_cons.1 h with rfl | h
    · exact ⟨by decide, by decide, by decide⟩
    · exact isWordChar_of_isDigit (isDigit_of_mem_toDigits h)
  · exact isWordChar_of_isDigit (isDigit_of_mem_toDigits h)

theorem writeInt_ne_nil (v : Int) : writeInt v ≠ [] := by
  unfold writeInt
  split
  · exact List.cons_ne_nil _ _
  · exact Nat.toDigits_ne_nil

/-- The characters of a word are read onto it. -/
theorem lineWords_append {cs : List Char} (h : ∀ c ∈ cs, IsWordChar c) (word rest : List Char) :
    lineWords word (cs ++ rest) = lineWords (word ++ cs) rest := by
  induction cs generalizing word with
  | nil => rw [List.append_nil, List.nil_append]
  | cons c cs ih =>
    obtain ⟨⟨hspace, htab, -⟩, hcs⟩ := List.forall_mem_cons.1 h
    rw [List.cons_append, lineWords, if_neg (by simp [hspace, htab]), ih hcs, List.append_assoc, List.singleton_append]

/-- A line of one word. -/
theorem lineWords_single {w : List Char} (hw : ∀ c ∈ w, IsWordChar c) (hne : w ≠ []) : lineWords [] w = [w] := by
  have h := lineWords_append hw [] []
  rw [List.append_nil] at h
  rw [h, List.nil_append, lineWords, if_neg hne]

/-- The first word of a line, up to a blank. -/
theorem lineWords_space {w : List Char} (hw : ∀ c ∈ w, IsWordChar c) (hne : w ≠ []) (rest : List Char) :
    lineWords [] (w ++ ' ' :: rest) = w :: lineWords [] rest := by
  rw [lineWords_append hw, List.nil_append, lineWords, if_pos (.inl rfl), if_neg hne]

/-- What stands before a comment is read up to it. -/
theorem takeWhile_before_comment {line tail : List Char} (hline : ∀ c ∈ line, c ≠ ';')
    (htail : tail.takeWhile (fun c => c ≠ ';') = []) : (line ++ tail).takeWhile (fun c => c ≠ ';') = line := by
  rw [List.takeWhile_append_of_pos (by simpa using hline), htail, List.append_nil]

theorem isWordChar_textReset : ∀ c ∈ textReset, IsWordChar c := by simp [textReset, IsWordChar]

theorem isWordChar_textEncode : ∀ c ∈ textEncode, IsWordChar c := by simp [textEncode, IsWordChar]

theorem isWordChar_textHold : ∀ c ∈ textHold, IsWordChar c := by simp [textHold, IsWordChar]

/-- The words of the line of an operation. -/
def wordsOf : Instr → List (List Char)
  | .reset => [textReset]
  | .encode v => [textEncode, writeInt v]
  | .hold => [textHold]

theorem lineWords_writeLine (i : Instr) : lineWords [] (writeLine i) = wordsOf i := by
  cases i with
  | reset => exact lineWords_single isWordChar_textReset (List.cons_ne_nil _ _)
  | encode v =>
    rw [writeLine, lineWords_space isWordChar_textEncode (List.cons_ne_nil _ _),
      lineWords_single (fun c => isWordChar_of_mem_writeInt) (writeInt_ne_nil v)]
    rfl
  | hold => exact lineWords_single isWordChar_textHold (List.cons_ne_nil _ _)

/-- No line of an operation holds a semicolon. -/
theorem ne_semicolon_of_mem_writeLine {i : Instr} {c : Char} (h : c ∈ writeLine i) : c ≠ ';' := by
  have hword {c : Char} : IsWordChar c → c ≠ ';' := fun ⟨_, _, hc⟩ => hc
  cases i with
  | reset => exact hword (isWordChar_textReset c h)
  | encode v =>
    rcases List.mem_append.1 h with h | h
    · exact hword (isWordChar_textEncode c h)
    · rcases List.mem_cons.1 h with rfl | h
      · decide
      · exact hword (isWordChar_of_mem_writeInt h)
  | hold => exact hword (isWordChar_textHold c h)

/-- The line of an operation, with or without a comment after it, reads as the operation where the width admits it, and
is an error elsewhere (R60). -/
theorem readLine_writeLine (W : Nat) (i : Instr) {tail : List Char} (htail : tail.takeWhile (fun c => c ≠ ';') = []) :
    readLine W (writeLine i ++ tail) = if i.wf W then .ok i else .error .outOfWidth := by
  rw [readLine, takeWhile_before_comment (fun c => ne_semicolon_of_mem_writeLine) htail, lineWords_writeLine]
  cases i with
  | reset => rfl
  | encode v => simp only [wordsOf, if_true, readInt_writeInt]; rfl
  | hold => rfl

/-- Settles O7: the two texts after a line that end it are none and a comment. -/
theorem commandLineRoundTrip : Obligations.CommandLineRoundTrip := by
  have hbare (W : Nat) (i : Instr) : readLine W (writeLine i) = if i.wf W then .ok i else .error .outOfWidth := by
    rw [← readLine_writeLine W i (tail := []) rfl, List.append_nil]
  refine ⟨fun W i comment hi => ⟨?_, ?_⟩, fun W n hn => ?_⟩
  · rw [hbare, if_pos hi]
  · rw [readLine_writeLine W i (tail := ';' :: comment) (by simp), if_pos hi]
  · rw [hbare, if_neg (by simp [Instr.wf, hn])]

end Sys2Proof
end

section
/-! SUPPORT. What the 66 bits mean (R12, R14, R15, R116): the operations establish it or keep it, and the statements
about it. -/

namespace Sys2Proof.Machine

open Sys2Proof.Safety

section FrameMeaning
variable {W : Nat} {rom : GlyphRom}

/-- The meaning is about the 66 bits alone. -/
theorem frameMeaningOf_of_regs_eq {s t : State W} (h : t.regs = s.regs) (hs : FrameMeaningOf rom s) :
    FrameMeaningOf rom t := by
  obtain ⟨hframe, hvalid, herr⟩ : t.frame = s.frame ∧ t.frameValid = s.frameValid ∧ t.rangeErr = s.rangeErr := by
    simpa [State.regs] using h
  obtain ⟨hblank, herrValid, hreset, hrendered⟩ := hs
  constructor <;> simpa only [BlankRows, hframe, hvalid, herr]

/-- The blank frame with both flags clear is what reset leaves (R23). -/
theorem frameMeaningOf_of_reset {s : State W} (h : s.regs = (Frame.blank, false, false)) : FrameMeaningOf rom s := by
  obtain ⟨hframe, hvalid, herr⟩ : s.frame = Frame.blank ∧ s.frameValid = false ∧ s.rangeErr = false := by
    simpa [State.regs] using h
  exact {
    blankRows := blankRows_of_frame_eq_blank hframe
    errIsValid := fun he => Bool.noConfusion (herr.symm.trans he)
    blankBeforeEncode := fun _ => hframe
    validIsRendering := fun hv => Bool.noConfusion (hvalid.symm.trans hv) }

/-- A frame marked valid has its meaning when it is the rendering of an in-range value or `RANGE_ERR` is set. -/
theorem frameMeaningOf_of_valid {s : State W} (hblank : BlankRows s) (hvalid : s.frameValid = true)
    (hrendered : s.rangeErr = false → ∃ v : Int, InRange v ∧ ∀ unspec, s.frame = (enc rom unspec v).1) :
    FrameMeaningOf rom s where
  blankRows := hblank
  errIsValid := fun _ => hvalid
  blankBeforeEncode := fun h => Bool.noConfusion (h.symm.trans hvalid)
  validIsRendering := fun _ => hrendered

/-- RESET and ENCODE give the 66 bits their meaning, whatever they held (R21). -/
theorem blockExec_establishes_frameMeaning {i : Instr} {s t : State W} (hi : i ≠ .hold)
    (h : blockExec rom i s = .next t) : FrameMeaningOf rom t := by
  have hblank : BlankRows t := blockExec_establishes_blankRows hi h
  rcases blockExec_cases rom i s with ⟨_, e, _⟩ | ⟨v, d, _, hv, hd, e, _⟩ | ⟨v, _, _, e, _⟩ | ⟨hold, _, _⟩
  · cases e.symm.trans h; exact frameMeaningOf_of_reset rfl
  · cases e.symm.trans h
    exact frameMeaningOf_of_valid hblank rfl fun _ => ⟨v, hv, fun unspec => (enc_fst_of_digits hd rom unspec).symm⟩
  · cases e.symm.trans h
    exact frameMeaningOf_of_valid hblank rfl fun herr => Bool.noConfusion herr
  · exact absurd hold hi

theorem blockExec_keeps_frameMeaning {i : Instr} {s t : State W} (hs : FrameMeaningOf rom s)
    (h : blockExec rom i s = .next t) : FrameMeaningOf rom t := by
  by_cases hi : i = .hold
  · subst hi; cases h; exact hs
  · exact blockExec_establishes_frameMeaning hi h

/-- The passing of an edge changes none of the 66 bits (R24). -/
theorem regs_passEdge (s : State W) : s.passEdge.regs = s.regs := by simp [State.regs]

theorem blockStep_keeps_frameMeaning {s t : State W} (hs : FrameMeaningOf rom s) (h : blockStep rom s = .next t) :
    FrameMeaningOf rom t :=
  blockExec_keeps_frameMeaning (frameMeaningOf_of_regs_eq (regs_passEdge s) hs) h

theorem resetAt_frameMeaning (W : Nat) (rom : GlyphRom) : FrameMeaningOf rom (State.resetAt W) :=
  frameMeaningOf_of_reset rfl

end FrameMeaning

/-- Settles O44: RESET and ENCODE establish the meaning, HOLD keeps it, and the reset state has it. -/
theorem frameMeaningInvariant : Obligations.FrameMeaningInvariant :=
  ⟨fun s _ hs h => blockStep_keeps_frameMeaning hs ((step_eq_blockStep s).symm.trans h),
    fun _ _ _ _ hs h => blockStep_keeps_frameMeaning hs h, resetAt_frameMeaning⟩

/-- Settles O45: a step that is not HOLD is a RESET or an ENCODE. -/
theorem anyCommandButHoldDefinesTheState : Obligations.AnyCommandButHoldDefinesTheState := fun s _ hi h =>
  blockExec_establishes_frameMeaning hi ((step_eq_blockStep s).symm.trans h)

/-- Settles O43: the reset state has the meaning, and blank rows with it. -/
theorem resetMeetsInvariants : Obligations.ResetMeetsInvariants :=
  ⟨(resetAt_frameMeaning _ Config.glyphRom).blankRows, resetAt_frameMeaning _ Config.glyphRom⟩

end Sys2Proof.Machine
end

section
/-! SUPPORT. The decoder of R90: what each row shape fits (R56), which information it reports, and that it reports for
an encoded frame the information of the operands with that frame; and the statements about it. -/

namespace Sys2Proof.Machine

/-! ## Row shapes -/

/-! Each shape's test of a row says that the row is the OR of the placed glyph rows. One half reads the glyph rows off
the row (256 rows), the other reads them back by slicing. -/

theorem isPos1Row_iff (m : RowMask) (u : GlyphRow) :
    ((m.extractLsb' 3 5 == 0) && showsAt m 0 u) = true ↔ m = place u 0 := by
  rw [Bool.and_eq_true, beq_iff_eq, showsAt, beq_iff_eq]
  constructor
  · rintro ⟨hdark, rfl⟩
    revert m; decide
  · rintro rfl
    exact ⟨place_extractLsb'_outside u (.inr (by decide)), place_extractLsb'_self u (by decide)⟩

theorem isPos2Row_iff (m : RowMask) (t u : GlyphRow) :
    (!m.getLsbD 7 && !m.getLsbD 3 && showsAt m 4 t && showsAt m 0 u) = true ↔ m = place t 4 ||| place u 0 := by
  simp only [Bool.and_eq_true, Bool.not_eq_true', showsAt, beq_iff_eq]
  constructor
  · rintro ⟨⟨hdark, rfl⟩, rfl⟩
    revert m; decide
  · rintro rfl
    exact ⟨⟨⟨place_or_place_getLsbD_outside t u (by decide) (by decide),
      place_or_place_getLsbD_outside t u (by decide) (by decide)⟩,
      place_or_place_slice_upper t u (by decide) (by decide)⟩, place_or_place_slice_lower t u (by decide) (by decide)⟩

theorem isNeg1Row_iff (m : RowMask) (minus u : GlyphRow) :
    (showsAt m 5 minus && (m.extractLsb' 3 2 == 0) && showsAt m 0 u) = true ↔ m = place minus 5 ||| place u 0 := by
  simp only [Bool.and_eq_true, showsAt, beq_iff_eq]
  constructor
  · rintro ⟨⟨rfl, hdark⟩, rfl⟩
    revert m; decide
  · rintro rfl
    refine ⟨⟨place_or_place_slice_upper minus u (by decide) (by decide), ?_⟩,
      place_or_place_slice_lower minus u (by decide) (by decide)⟩
    rw [BitVec.extractLsb'_or, place_extractLsb'_outside minus (.inl (by decide)),
      place_extractLsb'_outside u (.inr (by decide))]
    rfl

theorem isNeg2Row_iff (m : RowMask) (minus t : GlyphRow) :
    (showsAt m 5 minus && !m.getLsbD 4 && !m.getLsbD 0 && showsAt m 1 t) = true ↔
      m = place minus 5 ||| place t 1 := by
  simp only [Bool.and_eq_true, Bool.not_eq_true', showsAt, beq_iff_eq]
  constructor
  · rintro ⟨⟨⟨rfl, hdark⟩, hdark'⟩, rfl⟩
    revert m; decide
  · rintro rfl
    exact ⟨⟨⟨place_or_place_slice_upper minus t (by decide) (by decide),
      place_or_place_getLsbD_outside minus t (by decide) (by decide)⟩,
      place_or_place_getLsbD_outside minus t (by decide) (by decide)⟩,
      place_or_place_slice_lower minus t (by decide) (by decide)⟩

theorem allRows_iff (f : Frame) (check : RowMask → Fin 5 → Bool) :
    allRows f check = true ↔ ∀ r, check (bodyRow f r) r = true := by
  simp only [allRows, Bool.and_eq_true, Fin.forall_fin_succ, Fin.forall_fin_zero, and_true, and_assoc]
  rfl

/-- Rows 1..5 of a frame are the rows of the given digits (R77). -/
def Carries (rom : GlyphRom) (f : Frame) (d : Digits) : Prop := ∀ r, bodyRow f r = rowMask rom d r

section Fits
variable {rom : GlyphRom} {f : Frame} {d : Digits}

theorem fitsPos1_iff_carries (h : d.layout = .pos1) : fitsPos1 rom f d.units = true ↔ Carries rom f d := by
  simp only [fitsPos1, allRows_iff, isPos1Row_iff, Carries, rowMask_of_pos1 h]

theorem fitsPos2_iff_carries (h : d.layout = .pos2) : fitsPos2 rom f d.tens d.units = true ↔ Carries rom f d := by
  simp only [fitsPos2, allRows_iff, isPos2Row_iff, Carries, rowMask_of_pos2 h]

theorem fitsNeg1_iff_carries (h : d.layout = .neg1) : fitsNeg1 rom f d.units = true ↔ Carries rom f d := by
  simp only [fitsNeg1, allRows_iff, isNeg1Row_iff, Carries, rowMask_of_neg1 h]

theorem fitsNeg2_iff_carries (h : d.layout = .neg2) : fitsNeg2 rom f d.tens = true ↔ Carries rom f d := by
  simp only [fitsNeg2, allRows_iff, isNeg2Row_iff, Carries, rowMask_of_neg2 h]

end Fits

/-! ## Rendered information and digits -/

/-- The rendered information of digits (R90). -/
def Digits.info (d : Digits) : Info :=
  { negative := d.negative
    tens := d.tens.val
    units := if d.layout = .neg2 then none else some d.units.val }

theorem info_of_digits {v : Int} {d : Digits} (h : digits? v = some d) : info v = d.info := by
  obtain ⟨-, hneg, htens, hunits⟩ := (digits?_eq_some_iff v d).1 h
  rw [info, ← hneg, ← htens, ← hunits]
  rcases d.layout_cases with ⟨hl, hn, ht⟩ | ⟨hl, hn, ht⟩ | ⟨hl, hn, ht⟩ | ⟨hl, hn, ht⟩ <;>
    simp [Digits.info, hl, hn, ht, Fin.pos_iff_ne_zero]

/-- The integer that a sign and two digits spell. -/
def Digits.value (d : Digits) : Int :=
  if d.negative then -(10 * d.tens.val + d.units.val : Nat) else (10 * d.tens.val + d.units.val : Nat)

/-- A sign and digits are those of the integer they spell, except for a negative zero (R53, R54). -/
theorem digits?_value {d : Digits} (h : d ≠ ⟨true, 0, 0⟩) : digits? d.value = some d := by
  obtain ⟨n, t, u⟩ := d
  have ht := t.isLt
  have hu := u.isLt
  rw [digits?_eq_some_iff, inRange_iff]
  cases n with
  | false =>
    simp only [Digits.value, negative, tens, units, magnitude, Bool.false_eq_true, if_false]
    exact ⟨by omega, (decide_eq_false (by omega)).symm, by omega, by omega⟩
  | true =>
    have hpos : 0 < 10 * t.val + u.val := by
      by_contra hzero
      exact h (by rw [show t = 0 from Fin.ext (by omega), show u = 0 from Fin.ext (by omega)])
    simp only [Digits.value, negative, tens, units, magnitude, if_true]
    exact ⟨by omega, (decide_eq_true (by omega)).symm, by omega, by omega⟩

theorem digits?_ne_negative_zero {v : Int} {d : Digits} (h : digits? v = some d) : d ≠ ⟨true, 0, 0⟩ := by
  rintro rfl
  obtain ⟨-, hneg, htens, hunits⟩ := (digits?_eq_some_iff v _).1 h
  have hlt := (negative_eq_true_iff v).1 hneg.symm
  simp only [tens, units, magnitude, Fin.val_zero] at htens hunits
  omega

/-! ## The decoder -/

theorem mem_allDigits (u : Fin 10) : u ∈ allDigits := by revert u; decide

theorem mem_nonzeroDigits (u : Fin 10) : u ∈ nonzeroDigits ↔ u ≠ 0 := by revert u; decide

/-- The decoder reports exactly the information of the digits whose rows the frame carries (R90). -/
theorem mem_readBack_iff {rom : GlyphRom} {f : Frame} {i : Info} :
    i ∈ readBack rom f ↔ ∃ d : Digits, d ≠ ⟨true, 0, 0⟩ ∧ Carries rom f d ∧ d.info = i := by
  simp only [readBack, List.mem_append, List.mem_map, List.mem_flatMap, List.mem_filter, mem_allDigits,
    mem_nonzeroDigits, true_and]
  constructor
  · rintro (((⟨u, hfits, rfl⟩ | ⟨t, ht, u, hfits, rfl⟩) | ⟨u, ⟨hu, hfits⟩, rfl⟩) | ⟨t, ⟨ht, hfits⟩, rfl⟩)
    · exact ⟨⟨false, 0, u⟩, by simp, (fitsPos1_iff_carries rfl).1 hfits, rfl⟩
    · have hl : Digits.layout ⟨false, t, u⟩ = .pos2 := by simp [Digits.layout, Fin.pos_iff_ne_zero, ht]
      exact ⟨⟨false, t, u⟩, by simp, (fitsPos2_iff_carries hl).1 hfits, by simp [Digits.info, hl]⟩
    · exact ⟨⟨true, 0, u⟩, by simpa using hu, (fitsNeg1_iff_carries rfl).1 hfits, rfl⟩
    · have hl : Digits.layout ⟨true, t, 0⟩ = .neg2 := by simp [Digits.layout, Fin.pos_iff_ne_zero, ht]
      exact ⟨⟨true, t, 0⟩, by simpa using ht, (fitsNeg2_iff_carries hl).1 hfits, by simp [Digits.info, hl]⟩
  · rintro ⟨d, hd, hcarries, rfl⟩
    rcases d.layout_cases with ⟨hl, hn, ht⟩ | ⟨hl, hn, ht⟩ | ⟨hl, hn, ht⟩ | ⟨hl, hn, ht⟩
    · exact .inl (.inl (.inl ⟨d.units, (fitsPos1_iff_carries hl).2 hcarries, by simp [Digits.info, hl, hn, ht]⟩))
    · exact .inl (.inl (.inr ⟨d.tens, ht, d.units, (fitsPos2_iff_carries hl).2 hcarries,
        by simp [Digits.info, hl, hn]⟩))
    · have hu : d.units ≠ 0 := fun hu => hd (by cases d; cases hn; cases ht; cases hu; rfl)
      exact .inl (.inr ⟨d.units, ⟨hu, (fitsNeg1_iff_carries hl).2 hcarries⟩, by simp [Digits.info, hl, hn, ht]⟩)
    · exact .inr ⟨d.tens, ⟨ht, (fitsNeg2_iff_carries hl).2 hcarries⟩, by simp [Digits.info, hl, hn]⟩

/-- An encoded frame carries the digits of an operand exactly when the operand has that frame. -/
theorem carries_enc_iff {v w : Int} {d : Digits} (hv : InRange v) (hw : digits? w = some d) (rom : GlyphRom)
    (unspec : Fin 5 → RowMask) :
    Carries rom (enc rom unspec v).1 d ↔ (enc rom unspec v).1 = (enc rom unspec w).1 := by
  rw [enc_fst_of_digits hw, enc_fst_of_digits (digits?_of_inRange hv)]
  simp only [Carries, renderedFrame, bodyRow_assemble]
  exact ⟨fun h => congrArg assemble (funext h), fun h => congrFun (assemble_inj h)⟩

/-- On an encoded frame the decoder reports exactly the information of the operands with that frame (R90). -/
theorem mem_readBack_enc_iff {rom : GlyphRom} {unspec : Fin 5 → RowMask} {v : Int} {i : Info} (hv : InRange v) :
    i ∈ readBack rom (enc rom unspec v).1 ↔
      ∃ w, InRange w ∧ (enc rom unspec v).1 = (enc rom unspec w).1 ∧ info w = i := by
  rw [mem_readBack_iff]
  constructor
  · rintro ⟨d, hd, hcarries, rfl⟩
    have hvalue := digits?_value hd
    exact ⟨d.value, ((digits?_eq_some_iff _ d).1 hvalue).1, (carries_enc_iff hv hvalue rom unspec).1 hcarries,
      info_of_digits hvalue⟩
  · rintro ⟨w, hw, hframe, rfl⟩
    have hdigits := digits?_of_inRange hw
    exact ⟨_, digits?_ne_negative_zero hdigits, (carries_enc_iff hv hdigits rom unspec).2 hframe,
      (info_of_digits hdigits).symm⟩

/-- Settles O50: what the decoder reports is the information of the operands with the same frame, and WF4 says that
they have the same. -/
theorem distinguishableIffReadBackIsUnique : Obligations.DistinguishableIffReadBackIsUnique := by
  intro rom
  constructor
  · intro hwf4 unspec v hv i hi
    obtain ⟨w, hw, hframe, rfl⟩ := (mem_readBack_enc_iff hv).1 hi
    exact (hwf4 unspec v w hv hw hframe).symm
  · intro hunique unspec v w hv hw hframe
    exact (hunique unspec v hv (info w) ((mem_readBack_enc_iff hv).2 ⟨w, hw, hframe, rfl⟩)).symm

/-- Settles O49: the operand itself has its frame, and WF4 leaves no other information. -/
theorem readBackRecoversInfo : Obligations.ReadBackRecoversInfo := fun rom unspec v hwf hv =>
  ⟨(mem_readBack_enc_iff hv).2 ⟨v, hv, rfl, rfl⟩,
    (distinguishableIffReadBackIsUnique rom).1 hwf.distinguishable unspec v hv⟩

end Sys2Proof.Machine
end

section
/-! SUPPORT. What the frame of an in-range operand tells of it (R33, R90): the operands with the same information, the
representatives of the 118 frames, tables with and without WF4, and the statements about them. -/

namespace Sys2Proof.Machine

open Sys2Proof.Spec

/-! ## Operands with the same rendered information -/

section SameInfo
variable {v w : Int}

/-- Two operands show the same exactly when they are equal, or of layout NEG2 with the same tens digit (R82, R90). -/
theorem info_eq_iff : info v = info w ↔ v = w ∨ (v ≤ -10 ∧ w ≤ -10 ∧ tens v = tens w) := by
  simp only [info, Info.mk.injEq, negative, decide_eq_decide, decide_eq_true_eq, tens, units, magnitude]
  constructor
  · rintro ⟨hneg, htens, hunits⟩
    by_cases hv : v ≤ -10
    · exact .inr ⟨hv, by omega, htens⟩
    · have hw : ¬ w ≤ -10 := by omega
      rw [if_neg (by omega), if_neg (by omega), Option.some.injEq] at hunits
      exact .inl (by omega)
  · rintro (rfl | ⟨hv, hw, htens⟩)
    · exact ⟨Iff.rfl, rfl, rfl⟩
    · exact ⟨by omega, htens, by rw [if_pos (by omega), if_pos (by omega)]⟩

/-- The frame of an in-range operand depends on its rendered information alone (R85, R90). -/
theorem enc_fst_eq_of_info_eq (hv : InRange v) (hw : InRange w) (h : info v = info w) (rom : GlyphRom)
    (unspec : Fin 5 → RowMask) : (enc rom unspec v).1 = (enc rom unspec w).1 := by
  rcases info_eq_iff.1 h with rfl | ⟨hv10, hw10, htens⟩
  · rfl
  · have hdigit : (-v).toNat / 10 = (-w).toNat / 10 := by simp only [tens, magnitude] at htens; omega
    have hrows : algorithmRow rom v = algorithmRow rom w :=
      funext fun r => by rw [algorithmRow_neg2 rom r hv10, algorithmRow_neg2 rom r hw10, hdigit]
    rw [enc_eq_algorithm hv, enc_eq_algorithm hw, hrows]

end SameInfo

/-- With WF4 the frame and the rendered information of in-range operands determine each other (R33, R90). -/
theorem enc_fst_eq_iff_info_eq {rom : GlyphRom} (hwf4 : LayoutsDistinguishable rom) {v w : Int} (hv : InRange v)
    (hw : InRange w) (unspec : Fin 5 → RowMask) :
    (enc rom unspec v).1 = (enc rom unspec w).1 ↔ info v = info w :=
  ⟨hwf4 unspec v w hv hw, fun h => enc_fst_eq_of_info_eq hv hw h rom unspec⟩

/-- Settles O52: from -9 up an operand shares its information with no other, and one of layout NEG2 shares it with a
neighbour of the same tens digit. -/
theorem fullValueIsRecoveredFromMinusNine : Obligations.FullValueIsRecoveredFromMinusNine := by
  intro rom unspec v hwf hv
  have hframe {w : Int} (hw : InRange w) : (enc rom unspec w).1 = (enc rom unspec v).1 ↔
      w = v ∨ (w ≤ -10 ∧ v ≤ -10 ∧ tens w = tens v) :=
    (enc_fst_eq_iff_info_eq hwf.distinguishable hw hv unspec).trans info_eq_iff
  constructor
  · intro hunique
    by_contra hlow
    have hlow : v ≤ -10 := by omega
    have hrange := (inRange_iff v).1 hv
    obtain ⟨w, hne, hw, hw10, htens⟩ : ∃ w : Int, w ≠ v ∧ InRange w ∧ w ≤ -10 ∧ tens w = tens v := by
      simp only [inRange_iff, tens, magnitude]
      by_cases hzero : v.natAbs % 10 = 0
      · exact ⟨v - 1, by omega⟩
      · exact ⟨v + 1, by omega⟩
    exact hne (hunique w hw ((hframe hw).2 (.inr ⟨hw10, hlow, htens⟩)))
  · intro hlow w hw heq
    rcases (hframe hw).1 heq with h | ⟨-, h, -⟩
    · exact h
    · omega

/-! ## The 118 frames -/

/-- One operand for each rendered information: all from -9 up, and of layout NEG2 those with units digit 0. -/
noncomputable def infoRepresentatives : Finset Int := (Finset.Icc (-99 : Int) 99).filter fun v => -9 ≤ v ∨ 10 ∣ v

theorem card_infoRepresentatives : infoRepresentatives.card = 118 := by decide +kernel

theorem mem_infoRepresentatives {v : Int} : v ∈ infoRepresentatives ↔ InRange v ∧ (-9 ≤ v ∨ 10 ∣ v) := by
  rw [infoRepresentatives, Finset.mem_filter, Finset.mem_Icc, inRange_iff]

/-- Every in-range operand shows what some representative shows. -/
theorem exists_representative {v : Int} (hv : InRange v) : ∃ w ∈ infoRepresentatives, info w = info v := by
  by_cases hlow : -9 ≤ v
  · exact ⟨v, mem_infoRepresentatives.2 ⟨hv, .inl hlow⟩, rfl⟩
  · rw [inRange_iff] at hv
    refine ⟨-(10 * tens v : Nat), mem_infoRepresentatives.2 ⟨?_, .inr ⟨-tens v, by push_cast; ring⟩⟩,
      info_eq_iff.2 (.inr ?_)⟩ <;> simp only [inRange_iff, tens, magnitude] <;> omega

/-- No two representatives show the same. -/
theorem info_injOn_infoRepresentatives : Set.InjOn info infoRepresentatives := by
  intro v hv w hw h
  obtain ⟨-, hv⟩ := mem_infoRepresentatives.1 hv
  obtain ⟨-, hw⟩ := mem_infoRepresentatives.1 hw
  rcases info_eq_iff.1 h with rfl | ⟨hv10, hw10, htens⟩
  · rfl
  · simp only [tens, magnitude] at htens; omega

/-- Settles O51: the representatives have all the frames, each its own. -/
theorem inRangeFramesNumber118 : Obligations.InRangeFramesNumber118 := by
  intro rom unspec hwf
  have himage : ((Finset.Icc (-99 : Int) 99).image fun v => (enc rom unspec v).1) =
      infoRepresentatives.image fun v => (enc rom unspec v).1 := by
    refine Finset.Subset.antisymm (Finset.image_subset_iff.2 fun v hv => ?_)
      (Finset.image_subset_image (Finset.filter_subset _ _))
    have hv : InRange v := (inRange_iff v).2 (Finset.mem_Icc.1 hv)
    obtain ⟨w, hw, hinfo⟩ := exists_representative hv
    exact Finset.mem_image.2
      ⟨w, hw, enc_fst_eq_of_info_eq (mem_infoRepresentatives.1 hw).1 hv hinfo rom unspec⟩
  have hinj : Set.InjOn (fun v => (enc rom unspec v).1) infoRepresentatives := fun v hv w hw h =>
    info_injOn_infoRepresentatives hv hw (hwf.distinguishable unspec v w (mem_infoRepresentatives.1 hv).1
      (mem_infoRepresentatives.1 hw).1 h)
  rw [himage, Finset.card_image_of_injOn hinj, card_infoRepresentatives]

/-! ## Glyph tables -/

/-- With WF4, digits that are drawn alike report the same information (R33). -/
theorem Digits.info_eq_of_rows_eq {rom : GlyphRom} (hwf4 : LayoutsDistinguishable rom) {d e : Digits}
    (hd : d ≠ ⟨true, 0, 0⟩) (he : e ≠ ⟨true, 0, 0⟩) (hrows : ∀ r, rowMask rom d r = rowMask rom e r) :
    d.info = e.info := by
  have hdv := digits?_value hd
  have hev := digits?_value he
  have hframe (unspec : Fin 5 → RowMask) : (enc rom unspec d.value).1 = (enc rom unspec e.value).1 := by
    rw [enc_fst_of_digits hdv, enc_fst_of_digits hev, renderedFrame, renderedFrame, funext hrows]
  rw [← info_of_digits hdv, ← info_of_digits hev]
  exact hwf4 (fun _ => 0) _ _ ((digits?_eq_some_iff _ _).1 hdv).1 ((digits?_eq_some_iff _ _).1 hev).1 (hframe _)

/-- Settles O53: two digits with one glyph would be drawn alike in layout POS1, and with a blank digit `d` the operand
`10 d` would be drawn as 0. -/
theorem distinguishableImpliesDistinctDigits : Obligations.DistinguishableImpliesDistinctDigits := by
  intro rom hwf4
  constructor
  · intro a b hne
    by_contra! hglyph
    have hinfo : Digits.info ⟨false, 0, a⟩ = Digits.info ⟨false, 0, b⟩ :=
      Digits.info_eq_of_rows_eq hwf4 (by simp) (by simp) fun r => by
        rw [rowMask_of_pos1 rfl, rowMask_of_pos1 rfl, hglyph r]
    exact hne (Fin.ext (by simpa [Digits.info, Digits.layout] using hinfo))
  · intro d hd
    by_contra! hblank
    have hl : Digits.layout ⟨false, d, 0⟩ = .pos2 := by simp [Digits.layout, Fin.pos_iff_ne_zero, hd]
    have hinfo : Digits.info ⟨false, d, 0⟩ = Digits.info ⟨false, 0, 0⟩ :=
      Digits.info_eq_of_rows_eq hwf4 (by simp) (by simp) fun r => by
        rw [rowMask_of_pos2 hl, rowMask_of_pos1 rfl, hblank r]
        exact BitVec.zero_or
    exact hd (Fin.ext (congrArg Info.tens hinfo))

section Slices
variable {rom : GlyphRom} {d : Digits}

/-- In every layout but NEG2 the units glyph is read back by slicing (R84). -/
theorem rowMask_slice_units (h : d.layout ≠ .neg2) (r : Fin 5) :
    (rowMask rom d r).extractLsb' 0 3 = rom (digitIndex d.units) r := by
  obtain ⟨-, -, -, -, -, -, -, -, -, -, -, hunits⟩ := placedGlyphsNeverOverlap rom d r
  exact hunits h

/-- In layout NEG2 the minus glyph is read back by slicing (R84). -/
theorem rowMask_slice_minus (h : d.layout = .neg2) (r : Fin 5) :
    (rowMask rom d r).extractLsb' 5 3 = rom minusIndex r := by
  rw [rowMask_of_neg2 h]
  exact place_or_place_slice_upper _ _ (by decide) (by decide)

end Slices

@[simp] theorem bodyRow_blank (r : Fin 5) : bodyRow Frame.blank r = 0 := bodyRow_assemble (fun _ => 0) r

/-- Settles O55: the frame of an operand shows its units glyph or, in layout NEG2, the minus glyph, and each has a row
that is not blank. -/
theorem noInRangeFrameIsBlank : Obligations.NoInRangeFrameIsBlank := by
  intro rom unspec v hwf2 hv hblank
  obtain ⟨d, hd⟩ : ∃ d, digits? v = some d := ⟨_, digits?_of_inRange hv⟩
  have hrow (r : Fin 5) : rowMask rom d r = 0 := by
    rw [← bodyRow_blank r, ← hblank, enc_fst_of_digits hd, renderedFrame, bodyRow_assemble]
  have hnoGlyph {g : Fin 11} {shift : Nat} (hslice : ∀ r, (rowMask rom d r).extractLsb' shift 3 = rom g r) : False := by
    obtain ⟨r, hr⟩ := hwf2 g
    exact hr (by rw [← hslice r, hrow r]; exact BitVec.extractLsb'_zero)
  by_cases hl : d.layout = .neg2
  · exact hnoGlyph (rowMask_slice_minus hl)
  · exact hnoGlyph (rowMask_slice_units hl)

/-- A reader that recovers the information of every frame shows that the table has WF4. -/
theorem layoutsDistinguishable_of_reader {rom : GlyphRom} (read : Frame → Info)
    (hread : ∀ d : Digits, read (renderedFrame rom d) = d.info) : LayoutsDistinguishable rom := by
  have hinfo (unspec : Fin 5 → RowMask) {v : Int} (hv : InRange v) : info v = read (enc rom unspec v).1 := by
    rw [enc_fst_of_digits (digits?_of_inRange hv), hread, info_of_digits (digits?_of_inRange hv)]
  intro unspec v w hv hw hframe
  rw [hinfo unspec hv, hinfo unspec hw, hframe]

/-- A table whose digits are written in binary, the three low bits on glyph row 0 and the high one on glyph row 1, so
that the digit 0 is blank there. Glyph row 4 marks the layout: all columns for the minus glyph, the middle one for each
digit but 0. -/
def blankZeroRom : GlyphRom := fun g =>
  match g with
  | 0 => glyphOf 0 0 0 0 0
  | 10 => glyphOf 0 0 0 0 7
  | d => glyphOf (BitVec.ofNat 3 (d.val % 8)) (BitVec.ofNat 3 (d.val / 8)) 0 0 2

/-- Reads the layout off frame row 5 and the digits off frame rows 1 and 2 of a frame of `blankZeroRom`. -/
def readBlankZero (f : Frame) : Info :=
  let digit (shift : Nat) : Nat := (f[1].extractLsb' shift 3).toNat + 8 * (f[2].extractLsb' shift 3).toNat
  if f[5].getLsbD 7 then
    if f[5].getLsbD 2 then ⟨true, digit 1, none⟩ else ⟨true, 0, some (digit 0)⟩
  else ⟨false, digit 4, some (digit 0)⟩

theorem readBlankZero_renderedFrame (d : Digits) : readBlankZero (renderedFrame blankZeroRom d) = d.info := by
  obtain ⟨n, t, u⟩ := d
  revert n t u
  decide +kernel

/-- Settles O54: the frames of `blankZeroRom` can be read, though its digit 0 is blank. -/
theorem blankZeroCanBeDistinguishable : Obligations.BlankZeroCanBeDistinguishable :=
  ⟨blankZeroRom, layoutsDistinguishable_of_reader readBlankZero readBlankZero_renderedFrame, by decide⟩

end Sys2Proof.Machine
end

section
/-! SUPPORT. What operations, steps and runs of the machine do (R42, R44, R58, R70): ENCODE of any operand as one state
update, runs that use up given commands, and the statements about them. -/

namespace Sys2Proof.Machine

open Sys2Proof.Safety

/-! ## One operation -/

section Encode
variable {W : Nat}

/-- ENCODE of any operand as one update: ENC's rows on this state's free values, and the counter of those values moved
on when they are used (R70, R88; log 4). -/
theorem encodeWith_eq (rom : GlyphRom) (v : Int) (s : State W) :
    encodeWith rom v s = .next { s with
      frame := (enc rom s.unspecRows v).1
      frameValid := true
      rangeErr := decide (100 ≤ v.natAbs)
      draws := if 100 ≤ v.natAbs then s.draws + 5 else s.draws } := by
  rcases inRange_or_out v with h | h
  · have hmag : ¬ 100 ≤ v.natAbs := by simp only [InRange, magnitude, Config.maxMag] at h; omega
    rw [encodeWith_writes_enc h rom s.unspecRows, if_neg hmag, decide_eq_false hmag]; rfl
  · have hmag : 100 ≤ v.natAbs := h
    rw [encodeWith_of_out h, enc_of_out h, if_pos hmag, decide_eq_true hmag]; rfl

end Encode

/-- Settles O22, by `encodeWith_eq` at the block's own table. -/
theorem encodeWritesEncOfOperand : Obligations.EncodeWritesEncOfOperand := fun v s =>
  ⟨encodeWith_eq Config.glyphRom v s, faultOf_encode_eq_range_iff v⟩

/-- Settles O25: the second step draws at the counter that the first one left. -/
theorem outOfRangeRowsAreDrawnAfresh : Obligations.OutOfRangeRowsAreDrawnAfresh := fun _ _ s hv hw =>
  ⟨_, _, exec_encode_of_out hv s, exec_encode_of_out hw s.takeRange, bodyRow_assemble _, bodyRow_assemble _, rfl, rfl⟩

/-- An operand outside the range has a magnitude of 100 or more (R73). -/
theorem out_of_not_inRange {v : Int} (h : ¬ InRange v) : 100 ≤ magnitude v := (inRange_or_out v).resolve_left h

/-- Settles O28: what RESET and in-range ENCODE write is no function of the state, and RANGE writes the same rows 0, 6,
7 and flags each time. -/
theorem operationsAreIdempotent : Obligations.OperationsAreIdempotent := by
  refine ⟨fun v s t hv h => ?_, fun s t h => ?_, exec_hold, fun v s t u hv ht hu => ?_⟩
  · rw [exec_encode_of_inRange hv] at h ⊢; cases h; rfl
  · cases h; rfl
  · have hout := out_of_not_inRange hv
    rw [exec_encode_of_out hout] at ht hu
    cases ht; cases hu
    exact ⟨rfl, rfl, rfl, rfl, rfl⟩

/-- Of the model's own fields an operation writes only the counter of open rows, when it raises RANGE (log 4). -/
theorem exec_modelFields {i : Instr} {s t : State} (h : exec i s = .next t) :
    t.inputs = s.inputs ∧ t.inputDraws = s.inputDraws ∧ (faultOf i = none → t.draws = s.draws) ∧
    (faultOf i = some .range → t.draws = s.draws + 5) := by
  rcases exec_cases i s with ⟨-, e, hf⟩ | ⟨v, d, -, -, -, e, hf⟩ | ⟨v, -, -, e, hf⟩ | ⟨-, e, hf⟩ <;>
    (cases e.symm.trans h; simp [hf])

/-! ## One step -/

/-- Settles O32: the command word of an edge is the first one given, or a free one. -/
theorem stepRunsSampledOperation : Obligations.StepRunsSampledOperation := by
  refine ⟨fun s cw rest h => step_of_inputs_cons h, fun s h => ?_⟩
  rw [step_eq_exec, State.operation, State.sampledCommand_nil h, State.passEdge_nil h]

/-- A step takes one command: a given one, or a free one where none is given (log 1). -/
theorem step_inputs {s t : State} (h : step s = .next t) :
    t.inputs = s.inputs.tail ∧ t.inputDraws = if s.inputs = [] then s.inputDraws + 1 else s.inputDraws := by
  obtain ⟨hinputs, hdraws, -⟩ := exec_modelFields h
  rw [hinputs, hdraws]
  cases hs : s.inputs with
  | nil => rw [State.passEdge_nil hs, if_pos rfl]; exact ⟨hs, rfl⟩
  | cons cw rest => rw [State.passEdge_cons hs, if_neg (List.cons_ne_nil _ _)]; exact ⟨rfl, rfl⟩

/-- Settles O37, by the frames of the operation and of the step. -/
theorem modelFieldsFrame : Obligations.ModelFieldsFrame :=
  ⟨fun _ _ _ => exec_modelFields, fun _ _ => step_inputs⟩

/-- Settles O36: words that differ in ignored bits decode to the same operation. -/
theorem ignoredInputsHaveNoEffect : Obligations.IgnoredInputsHaveNoEffect := by
  intro s enc enc' value value' rest
  have hstep {cw cw' : CommandWord 16} (h : decodeCommand cw = decodeCommand cw') :
      step { s with inputs := cw :: rest } = step { s with inputs := cw' :: rest } := by
    rw [step_of_inputs_cons rfl, step_of_inputs_cons rfl, h]
  constructor <;> apply hstep <;> rw [decodeCommand_commandWord, decodeCommand_commandWord]

/-- Settles O30: the word with `rst` at 1 decodes to RESET, which writes the 66 bits of R23. -/
theorem resetStateIsTheStateAfterReset : Obligations.ResetStateIsTheStateAfterReset := by
  refine ⟨rfl, fun enc value rest => ?_⟩
  have hstep := step_of_inputs_cons (s := State.powerUp (commandWord true enc value :: rest)) rfl
  rw [decodeCommand_commandWord, exec_reset] at hstep
  exact ⟨_, hstep, rfl, rfl⟩

/-- The outputs show every row of the frame, so two frames with one bus are equal (R22, R37). -/
theorem frameBus_injective : Function.Injective frameBus := by
  intro f g h
  refine Vector.ext fun r hr => ?_
  have hrow := frameBus_extractLsb' f ⟨r, hr⟩
  rw [h, frameBus_extractLsb'] at hrow
  exact hrow.symm

/-- Settles O48: the bus determines the frame, and the flags are outputs themselves. -/
theorem outputsShowExactlyTheRegisters : Obligations.OutputsShowExactlyTheRegisters := by
  intro s t
  rw [State.frameOut, State.frameOut, frameBus_injective.eq_iff]
  simp only [State.frameValidOut, State.rangeErrOut, State.regs, Prod.mk.injEq]

/-! ## Runs -/

/-- Settles O56: the runs agree since the steps do. -/
theorem machineIsTheDefaultBlock : Obligations.MachineIsTheDefaultBlock := by
  refine ⟨exec_eq_blockExec, step_eq_blockStep, fun s nbits w => s.withFetchWord_eq_presentTableWord nbits w,
    fun k => ?_, rfl⟩
  induction k with
  | zero => exact fun s => rfl
  | succ k ih =>
    intro s
    obtain ⟨t, ht⟩ := step_completes s
    rw [core_run_succ ht, ih t]
    exact (blockCore_run_succ Config.params ((step_eq_blockStep s).symm.trans ht) k).symm

theorem core_run_completes (k : Nat) (s : State) : ∃ t, core.run k s = .next t := by
  induction k generalizing s with
  | zero => exact ⟨s, rfl⟩
  | succ k ih =>
    obtain ⟨t, ht⟩ := step_completes s
    rw [core_run_succ ht]
    exact ih t

/-- Settles O34, by the completion of operations, steps and runs. -/
theorem everyStepCompletes : Obligations.EveryStepCompletes := ⟨exec_completes, step_completes, core_run_completes⟩

/-- A run in two parts. -/
theorem core_run_add {m : Nat} {s t : State} (h : core.run m s = .next t) (n : Nat) :
    core.run (m + n) s = core.run n t := by
  induction m generalizing s with
  | zero => cases h; rw [Nat.zero_add]
  | succ m ih =>
    obtain ⟨u, hu⟩ := step_completes s
    rw [core_run_succ hu] at h
    rw [Nat.succ_add, core_run_succ hu, ih h]

/-- A run of as many steps as commands are given uses up those commands. -/
theorem core_run_uses_inputs {words rest : List (CommandWord Config.valueWidth)} {s : State}
    (h : s.inputs = words ++ rest) : ∃ t, core.run words.length s = .next t ∧ t.inputs = rest := by
  induction words generalizing s with
  | nil => exact ⟨s, rfl, h⟩
  | cons cw words ih =>
    obtain ⟨t, ht⟩ := step_completes s
    obtain ⟨hinputs, -⟩ := step_inputs ht
    rw [h, List.cons_append, List.tail_cons] at hinputs
    rw [List.length_cons, core_run_succ ht]
    exact ih hinputs

/-- Settles O46: the commands before are used up, the last command writes all 66 bits whatever they held, and the HOLD
words only use themselves up. -/
theorem lastCommandDeterminesOutputs : Obligations.LastCommandDeterminesOutputs := by
  intro before holds rest cw s hs hholds
  obtain ⟨t, ht, htinputs⟩ := core_run_uses_inputs hs
  obtain ⟨u, hu⟩ := exec_completes (decodeCommand cw) { t with inputs := holds ++ rest }
  obtain ⟨huinputs, -⟩ : u.inputs = holds ++ rest ∧ _ := exec_modelFields hu
  have hstep : step t = .next u := (step_of_inputs_cons htinputs).trans hu
  have hrun : core.run (before.length + 1 + holds.length) s = .next { u with inputs := rest } := by
    rw [Nat.add_assoc, core_run_add ht, Nat.add_comm 1, core_run_succ hstep, core_run_of_holds hholds huinputs]
  refine ⟨_, hrun, rfl, fun hcw => ?_, fun v hcw hv unspec => ?_, fun v hcw hv => ?_⟩
  · rw [hcw, exec_reset] at hu; cases hu; rfl
  · rw [hcw, exec_encode, encodeWith_writes_enc hv Config.glyphRom unspec] at hu; cases hu; rfl
  · rw [hcw, exec_encode_of_out (out_of_not_inRange hv)] at hu; cases hu
    exact ⟨⟨rfl, rfl, rfl⟩, rfl, rfl⟩

/-- Settles O41, by induction on the run: a step without a fault sets no `RANGE_ERR`, and the rest of the run records
no fault. -/
theorem safeRunKeepsRangeErrClear : Obligations.SafeRunKeepsRangeErrClear := by
  intro k
  induction k with
  | zero => exact fun s _ herr => ⟨s, rfl, herr⟩
  | succ k ih =>
    intro s hsafe herr
    obtain ⟨t, ht⟩ := step_completes s
    rw [SafeRun, faultRecord, ← step_eq_blockStep, ht, List.append_eq_nil_iff] at hsafe
    obtain ⟨hfault, hrest⟩ := hsafe
    have hfault : stepFault s = none := by simpa using hfault
    have hclear : t.rangeErr = false := by
      rw [Bool.eq_false_iff, ne_eq, rangeErrIsSetAndCleared s t ht, hfault, herr]
      simp
    rw [core_run_succ ht]
    exact ih t hrest hclear

end Sys2Proof.Machine
end

section
/-! SUPPORT. Blocks of every width (R5, R50): the ports, the same operands at a wider block, and the statements about
them. -/

namespace Sys2Proof.Machine

open Sys2Proof.Spec

/-- Settles O57: the three sampled commands are RESET, ENCODE and HOLD, on the state with the command used up. -/
theorem portsOfEveryWidth : Obligations.PortsOfEveryWidth := by
  intro W rom s _
  refine ⟨fun enc value rest h => ?_, fun value rest h => ?_, fun value rest h => ?_, fun h => ?_,
    frameBus_extractLsb' s.frame, rfl, rfl⟩
  · rw [blockStep_of_inputs_cons rom h, decodeCommand_commandWord]; rfl
  · rw [blockStep_of_inputs_cons rom h, decodeCommand_commandWord, blockExec_encode, encodeWith_eq]; rfl
  · rw [blockStep_of_inputs_cons rom h, decodeCommand_commandWord]; rfl
  · rw [blockStep, State.operation, State.sampledCommand_nil h, State.passEdge_nil h]

/-! ## A wider block -/

/-- Every operation of a block answers a next state, with the given commands untouched (R58, R110). -/
theorem blockExec_completes {W : Nat} (rom : GlyphRom) (i : Instr) (s : State W) :
    ∃ t, blockExec rom i s = .next t ∧ t.inputs = s.inputs := by
  rcases blockExec_cases rom i s with ⟨-, e, -⟩ | ⟨v, d, -, -, -, e, -⟩ | ⟨v, -, -, e, -⟩ | ⟨-, e, -⟩ <;>
    exact ⟨_, e, rfl⟩

section Widen
variable {W W' : Nat}

/-- A widened command word stands for the same operation (R5). -/
theorem decodeCommand_widenWord (h : W ≤ W') (cw : CommandWord W) :
    decodeCommand (widenWord W' cw) = decodeCommand cw := by
  rw [widenWord, decodeCommand_commandWord, sint_signExtend h, ← decodeCommand_commandWord, commandWord_of_fields]

/-- No operation depends on the width: what it does to a state it does to the widened state (R5). -/
theorem blockExec_widenState {rom : GlyphRom} {i : Instr} {s t : State W} (h : blockExec rom i s = .next t) :
    blockExec rom i (widenState W' s) = .next (widenState W' t) := by
  cases i with
  | reset => cases h; rfl
  | encode v =>
    rw [blockExec_encode, encodeWith_eq] at h ⊢
    cases h; rfl
  | hold => cases h; rfl

/-- On given commands a step of the narrower block completes with one command used up, and the wider block does the
same. -/
theorem blockStep_widenState (hle : W ≤ W') (rom : GlyphRom) {s : State W} {cw : CommandWord W}
    {rest : List (CommandWord W)} (h : s.inputs = cw :: rest) :
    ∃ t, blockStep rom s = .next t ∧ blockStep rom (widenState W' s) = .next (widenState W' t) ∧ t.inputs = rest := by
  have hwide : (widenState W' s).inputs = widenWord W' cw :: rest.map (widenWord W') := by
    rw [widenState, h, List.map_cons]
  obtain ⟨t, ht, hinputs⟩ := blockExec_completes rom (decodeCommand cw) { s with inputs := rest }
  refine ⟨t, (blockStep_of_inputs_cons rom h).trans ht, ?_, hinputs⟩
  rw [blockStep_of_inputs_cons rom hwide, decodeCommand_widenWord hle]
  exact blockExec_widenState ht

end Widen

/-- Settles O58: a step by `blockStep_widenState`, a run by induction on its length. -/
theorem widerBlockDoesTheSame : Obligations.WiderBlockDoesTheSame := by
  constructor
  · intro W W' rom s _ hle hne
    obtain ⟨cw, rest, hs⟩ := List.exists_cons_of_ne_nil hne
    obtain ⟨t, ht, hwide, -⟩ := blockStep_widenState hle rom hs
    exact ⟨t, ht, hwide⟩
  · intro p q k s hle hrom hk
    induction k generalizing s with
    | zero => exact ⟨s, rfl, rfl⟩
    | succ k ih =>
      obtain ⟨cw, rest, hs⟩ := List.exists_cons_of_length_pos (Nat.zero_lt_of_lt hk)
      obtain ⟨t, ht, hwide, hinputs⟩ := blockStep_widenState hle p.glyphRom hs
      rw [blockCore_run_succ p ht, blockCore_run_succ q (hrom ▸ hwide)]
      exact ih t (by rw [hinputs]; rw [hs] at hk; exact Nat.le_of_succ_le_succ hk)

end Sys2Proof.Machine
end
